-- ==== Sys2Proof/Word.lean ====
section
/-! DEFINITION. The two word types of VM3: a 64-bit register value and a 3-bit program word (00_scope.md R5, R6, R13). -/

namespace Sys2Proof

/-- A register value: "64-bit unsigned" (R5). -/
abbrev Word := BitVec 64

/-- One entry of the program or of the output log: exactly 3 bits (R6, R32). -/
abbrev PWord := BitVec 3

end Sys2Proof
end

