-- ==== Sys2Proof/Config.lean ====
section
/-! DEFINITION. The implementation parameters the spec leaves open: `out_capacity` (R10) and `MAX_PROG_LEN` (R8). -/

namespace Sys2Proof

/-- The parameters of one implementation. The spec leaves both open, so every statement ranges over all their values;
an instance carries the ones it was built with (log entry 1). -/
structure Config where
  /-- `out_capacity` (R10): `none` is an unbounded output log, `some n` one of at most `n` entries. -/
  outCapacity : Option Nat
  /-- `MAX_PROG_LEN` (R8): `none` is no maximum, `some m` the longest program NEW accepts. -/
  maxProgLen : Option Nat
  deriving DecidableEq, Repr

/-- The unbounded implementation: R10's stated default for the output log, and no maximum program length (log entry 3). -/
def Config.unbounded : Config := { outCapacity := none, maxProgLen := none }

/-- The least `PC_BITS` of an implementation whose programs have at most `m` words (R9). -/
def Config.minPcBits (m : Nat) : Nat := Nat.clog 2 (max m 7 + 1)

end Sys2Proof
end

