-- ==== Sys2Proof/Syntax.lean ====
section
/-! DEFINITION. The instructions of VM3: one constructor per row of spec/opcode_table.json (30_encoding.md R67). -/

namespace Sys2Proof

/-- The three general registers (R21). -/
inductive Reg where
  | a
  | b
  | c
  deriving DecidableEq, Repr

/-- A combo operand (R65): a literal 0–3, a live register, or the reserved value 7 (R69). -/
inductive Combo where
  /-- Operand words 0–3: the literal itself. -/
  | lit (n : BitVec 2)
  /-- Operand words 4, 5, 6: the live register A, B, C. -/
  | reg (r : Reg)
  /-- Operand word 7: "any other value is invalid". -/
  | reserved
  deriving DecidableEq, Repr

/-- The fixed 8-opcode set (R2, R67), each with the operand kind R63 gives it. -/
inductive Instr where
  /-- opcode 0: "A = A >> combo" (R100) -/
  | adv (x : Combo)
  /-- opcode 1: "B = B XOR literal" (R120) -/
  | bxl (x : PWord)
  /-- opcode 2: "B = combo mod 8" (R124) -/
  | bst (x : Combo)
  /-- opcode 3: "if A ≠ 0: pc = literal" (R140) -/
  | jnz (x : PWord)
  /-- opcode 4: "B = B XOR C (operand unused)" (R128); the operand word is kept, it occupies a word (R66) -/
  | bxc (x : PWord)
  /-- opcode 5: "append (combo mod 8) to output" (R150) -/
  | out (x : Combo)
  /-- opcode 6: "B = A >> combo" (R104) -/
  | bdv (x : Combo)
  /-- opcode 7: "C = A >> combo" (R108) -/
  | cdv (x : Combo)
  deriving DecidableEq, Repr

end Sys2Proof
end

