-- ==== Sys2Proof/WellFormed.lean ====
section
/-! DEFINITION. Which instructions are well formed: every one but the reserved encodings of 30_encoding.md R69. -/

namespace Sys2Proof

/-- Every combo operand but the reserved 7 (R65, R69). -/
def Combo.wellFormed : Combo → Bool
  | .lit _ => true
  | .reg _ => true
  | .reserved => false

/-- An instruction is well formed when its encoding is not one of the five reserved patterns of R69. -/
def Instr.wellFormed : Instr → Bool
  | .adv x => x.wellFormed
  | .bxl _ => true
  | .bst x => x.wellFormed
  | .jnz _ => true
  | .bxc _ => true
  | .out x => x.wellFormed
  | .bdv x => x.wellFormed
  | .cdv x => x.wellFormed

end Sys2Proof
end

