-- ==== Sys2Proof/Decode.lean ====
section
/-! DEFINITION. Decoding and encoding of instruction pairs (30_encoding.md R60–R70), the pair-value numbering of the
opcode table (R62), and the table itself as rows of mask and pattern. -/

namespace Sys2Proof

/-- Why words are not an instruction. -/
inductive DecodeRefusal where
  /-- No word at all: there is no opcode word (R60, R81). -/
  | noOpcode
  /-- One word only: "a two-word opcode missing its operand" (R60, R81). -/
  | noOperand
  /-- A raw opcode above 7: the source's "invalid opcode" error path (R68, R203). -/
  | opcodeOutOfRange (w : Nat)
  /-- A raw operand above 7 (R6, R161). -/
  | operandOutOfRange (w : Nat)
  deriving DecidableEq, Repr

/-- The combo operand an operand word stands for (R65). -/
def decodeCombo (k : PWord) : Combo :=
  if k = 4#3 then .reg .a
  else if k = 5#3 then .reg .b
  else if k = 6#3 then .reg .c
  else if k = 7#3 then .reserved
  else .lit (k.setWidth 2)

/-- "Decoding is by the opcode word alone" (R67): the instruction of an (opcode, operand) pair.
Every opcode value is assigned (R68), so there is no default arm. -/
def decodePair (op x : PWord) : Instr :=
  match op.toFin with
  | 0 => .adv (decodeCombo x)
  | 1 => .bxl x
  | 2 => .bst (decodeCombo x)
  | 3 => .jnz x
  | 4 => .bxc x
  | 5 => .out (decodeCombo x)
  | 6 => .bdv (decodeCombo x)
  | 7 => .cdv (decodeCombo x)

/-- Decodes the first instruction of a sequence of program words and gives the words after it (R60). -/
def decode : List PWord → Except DecodeRefusal (Instr × List PWord)
  | [] => .error .noOpcode
  | [_] => .error .noOperand
  | op :: x :: rest => .ok (decodePair op x, rest)

/-- Decodes the first instruction of a sequence of raw numbers, as a model with a wider word type meets them: numbers
above 7 are refused, opcode first (R68, R161, R203). -/
def decodeRaw : List Nat → Except DecodeRefusal (Instr × List Nat)
  | [] => .error .noOpcode
  | [_] => .error .noOperand
  | op :: x :: rest =>
    if 7 < op then .error (.opcodeOutOfRange op)
    else if 7 < x then .error (.operandOutOfRange x)
    else .ok (decodePair (BitVec.ofNat 3 op) (BitVec.ofNat 3 x), rest)

/-- The opcode word of an instruction (R67). -/
def Instr.opcode : Instr → PWord
  | .adv _ => 0#3
  | .bxl _ => 1#3
  | .bst _ => 2#3
  | .jnz _ => 3#3
  | .bxc _ => 4#3
  | .out _ => 5#3
  | .bdv _ => 6#3
  | .cdv _ => 7#3

/-- The operand word of a combo operand (R65). -/
def Combo.word : Combo → PWord
  | .lit n => n.setWidth 3
  | .reg .a => 4#3
  | .reg .b => 5#3
  | .reg .c => 6#3
  | .reserved => 7#3

/-- The operand word of an instruction (R61, R63). -/
def Instr.operandWord : Instr → PWord
  | .adv x => x.word
  | .bxl x => x
  | .bst x => x.word
  | .jnz x => x
  | .bxc x => x
  | .out x => x.word
  | .bdv x => x.word
  | .cdv x => x.word

/-- The two program words of an instruction, opcode first (R44, R60). -/
def encode (i : Instr) : List PWord := [i.opcode, i.operandWord]

/-- The pair value `opcode·8 + operand` (R62). -/
def Instr.pairValue (i : Instr) : Nat := i.opcode.toNat * 8 + i.operandWord.toNat

/-- The opcode word of a pair value: `pv[5:3]` (R62). -/
def pairOpcode (pv : Nat) : PWord := BitVec.ofNat 3 (pv / 8)

/-- The operand word of a pair value: `pv[2:0]` (R62). -/
def pairOperand (pv : Nat) : PWord := BitVec.ofNat 3 pv

/-- The instruction whose bits are the low `nbits` bits of `w`, numbered as spec/opcode_table.json numbers them: the
pair value of R62 (log entry 6). The two words go to the decoder in memory order; a number that is no 6-bit pair value
is no instruction. -/
def decodeTableWord (nbits w : Nat) : Option Instr :=
  let pv := w % 2 ^ nbits
  if pv < 64 then
    match decode [pairOpcode pv, pairOperand pv] with
    | .ok (i, _) => some i
    | .error _ => none
  else none

/-- The mnemonic of an instruction, as spec/opcode_table.json spells it (R67). -/
def Instr.mnemonic : Instr → String
  | .adv _ => "adv"
  | .bxl _ => "bxl"
  | .bst _ => "bst"
  | .jnz _ => "jnz"
  | .bxc _ => "bxc"
  | .out _ => "out"
  | .bdv _ => "bdv"
  | .cdv _ => "cdv"

/-- One row of the opcode table: a pair value `pv` belongs to the row when `pv &&& mask = pattern` (R67). -/
structure EncodingRow where
  mnemonic : String
  mask : BitVec 6
  pattern : BitVec 6
  deriving DecidableEq, Repr

/-- The opcode map of R67 as rows of mask and pattern over the pair value. -/
def encodingTable : List EncodingRow :=
  [ ⟨"adv", 0b111000#6, 0b000000#6⟩, ⟨"bxl", 0b111000#6, 0b001000#6⟩,
    ⟨"bst", 0b111000#6, 0b010000#6⟩, ⟨"jnz", 0b111000#6, 0b011000#6⟩,
    ⟨"bxc", 0b111000#6, 0b100000#6⟩, ⟨"out", 0b111000#6, 0b101000#6⟩,
    ⟨"bdv", 0b111000#6, 0b110000#6⟩, ⟨"cdv", 0b111000#6, 0b111000#6⟩ ]

/-- The row's pattern matches the pair value. -/
def EncodingRow.covers (r : EncodingRow) (pv : BitVec 6) : Bool := pv &&& r.mask == r.pattern

end Sys2Proof
end

