-- ==== Sys2Proof/Machine/State.lean ====
section
/-! DEFINITION. The state of one VM3 instance (10_state.md R20), the faults (60_exceptions.md R200), the refusals
(45_host_commands.md R175), and the state after reset. -/

namespace Sys2Proof.Machine

/-- Program memory P: the words at indexes `0 .. L-1` (R31, R40). It is positional and immutable, so equal memories are
equal lists and no canonical form has to be kept (log entry 5). -/
abbrev Memory := List PWord

/-- The state of one instance: R20's tuple, and beside it the parameters the instance was built with (log entry 1).
`L` is `prog.length`. There is nothing else (R20, R33, R34). -/
structure State where
  /-- live register A (R21) -/
  a : Word
  /-- live register B (R21) -/
  b : Word
  /-- live register C (R21) -/
  c : Word
  /-- program counter: a word index, a natural number (R25) -/
  pc : Nat
  /-- output log, oldest entry first (R32) -/
  out : List PWord
  /-- snapshot of A (R30) -/
  a0 : Word
  /-- snapshot of B (R30) -/
  b0 : Word
  /-- snapshot of C (R30) -/
  c0 : Word
  /-- program memory P (R31) -/
  prog : Memory
  /-- the implementation's parameters; nothing writes them after NEW (log entry 1) -/
  cfg : Config
  deriving DecidableEq, Repr

/-- The faults of VM3 with their records (R200). All are the spec's own, so a step that ends in one is no departure from
it (safe): the step writes nothing (R85). -/
inductive Fault where
  /-- Code 1. Raised by every opcode at fetch: opcode index or operand index at or beyond the end of the program
  (R201); records the pc and the first index out of range. Safe. -/
  | programBounds (pc index : Nat)
  /-- Code 2. Raised by adv, bst, out, bdv, cdv on combo operand 7 (R202). Safe. -/
  | invalidOperand (pc : Nat) (operand : PWord)
  /-- Code 3. Reserved: raised by no instruction, since a word holds 3 bits (R203); the reference algorithm over raw
  numbers (Machine/Reference.lean) raises it. Safe. -/
  | invalidOpcode (pc opcode : Nat)
  /-- Code 4. Raised by out in an implementation whose output log is bounded and full (R204). Safe. -/
  | outputOverflow (pc : Nat)
  deriving DecidableEq, Repr

/-- The reasons a command is refused (R17, R175); a refusal changes no state. -/
inductive Refusal where
  /-- An instruction without a meaning in the model: raised by no arm of `exec` (every row has its meaning). Safe. -/
  | notModelled (mnemonic : String)
  /-- Any command but NEW before the first NEW (R175, R232). Safe: the spec's own. -/
  | noInstance
  /-- NEW with a word outside 0–7 (R161). Safe: the spec's own. -/
  | wordOutOfRange
  /-- NEW with a program longer than `MAX_PROG_LEN` (R161). Safe: the spec's own. -/
  | programTooLong
  deriving DecidableEq, Repr

/-- The instance that an accepted NEW makes (R160): registers and snapshot take the supplied values, pc 0, output empty. -/
def State.fresh (cfg : Config) (a b c : Word) (prog : Memory) : State :=
  { a := a, b := b, c := c, pc := 0, out := [], a0 := a, b0 := b, c0 := c, prog := prog, cfg := cfg }

/-- The machine right after reset. Reset is NEW (R230), whose values the host supplies: the model's reset is NEW of three
zeros and the empty program (log entry 2) on an unbounded implementation (log entry 3). -/
def State.reset : State := State.fresh Config.unbounded 0#64 0#64 0#64 []

end Sys2Proof.Machine
end

