-- ==== Sys2Proof/Machine/Ops.lean ====
section
/-! DEFINITION. The named operations over state: register reads and writes, program reads, the pc, the output log, the
shift, and raising a fault (00_scope.md R13–R16, 20_memory.md R40–R43, 40_execution_cycle.md R84–R86). -/

namespace Sys2Proof.Machine

/-- `zext_64(v)` (R13). -/
def zext64 {n : Nat} (v : BitVec n) : Word := v.setWidth 64

/-- `v mod 8 = v[2:0]` as a 3-bit value (R15). -/
def low3 (v : Word) : PWord := v.setWidth 3

/-- `shr64(v, n)`, the logical right shift by a full 64-bit amount: 0 when the amount is 64 or more (R16). -/
def shr64 (v n : Word) : Word := if n.toNat < 64 then v >>> n.toNat else 0#64

/-- `x[r]`: the live register (R14). -/
def readReg (r : Reg) (s : State) : Word :=
  match r with
  | .a => s.a
  | .b => s.b
  | .c => s.c

/-- `x[r] <- v` (R14). No register is hardwired (R21). -/
def writeReg (r : Reg) (v : Word) (s : State) : State :=
  match r with
  | .a => { s with a := v }
  | .b => { s with b := v }
  | .c => { s with c := v }

/-- `L` (R14, R31). -/
def progLen (s : State) : Nat := s.prog.length

/-- `MemRead(i, 1)`: the program word at index `i`, and nothing for an index at or beyond `L` (R14, R42). -/
def memRead (s : State) (i : Nat) : Option PWord := s.prog[i]?

/-- What NEW guarantees of a program memory: it is no longer than `MAX_PROG_LEN` (R8, R161). The positional list needs
no other form (log entry 5). -/
def Memory.wf (cfg : Config) (p : Memory) : Bool :=
  match cfg.maxProgLen with
  | none => true
  | some m => decide (p.length ≤ m)

/-- The normal advance `pc <- pc + 2`, on natural numbers (R15, R84). -/
def advance (s : State) : State := { s with pc := s.pc + 2 }

/-- `pc <- zext(x)`: an absolute word index, neither scaled nor relative (R140, R141). -/
def jumpTo (x : PWord) (s : State) : State := { s with pc := x.toNat }

/-- `OutAppend(v)`: the entry goes after the last one (R14, R43). -/
def outAppend (v : PWord) (s : State) : State := { s with out := s.out ++ [v] }

/-- The output log has no room left: `out_capacity = some n` and `|out| ≥ n` (R204). -/
def outFull (s : State) : Bool :=
  match s.cfg.outCapacity with
  | none => false
  | some n => decide (n ≤ s.out.length)

/-- `finished()`: true iff pc equals the program length (R29). It is computed, no stored bit. -/
def finished (s : State) : Bool := decide (s.pc = progLen s)

/-- `raise F(info)`: the one way a step takes an exception. It ends the step with the fault and its record; nothing is
saved, no handler is entered and no write of the step takes effect (R14, R85, R207). There is no return from a fault
(R209). -/
def raiseFault (f : Fault) : Host.Outcome State Fault Refusal := .fault f

/-- The numeric code of a fault (R200). -/
def Fault.code : Fault → Nat
  | .programBounds _ _ => 1
  | .invalidOperand _ _ => 2
  | .invalidOpcode _ _ => 3
  | .outputOverflow _ => 4

/-- Program memory with the pair `op`, `x` at indexes `i` and `i + 1`, lengthened with zero words when it is too short
(log entry 4). No instruction and no command does this: it stands for loading another program. -/
def placePair (i : Nat) (op x : PWord) (p : Memory) : Memory :=
  ((p ++ List.replicate (i + 2 - p.length) 0#3).set i op).set (i + 1) x

end Sys2Proof.Machine
end

