-- ==== Sys2Proof/Machine/Operands.lean ====
section
/-! DEFINITION. Operand resolution (30_encoding.md R63–R66, 40_execution_cycle.md R82): literal, combo, and the reserved
combo value. -/

namespace Sys2Proof.Machine

/-- `literal(x) = zext_64(x)` (R64). -/
def literalValue (x : PWord) : Word := zext64 x

/-- `combo(x)` against the live registers at the start of the step: the literal, or the whole 64-bit register; the
reserved operand has no value (R65, R82). -/
def comboValue (x : Combo) (s : State) : Option Word :=
  match x with
  | .lit n => some (zext64 n)
  | .reg r => some (readReg r s)
  | .reserved => none

/-- Resolves a combo operand and goes on with its value; the reserved operand raises InvalidOperand before any write
(R65, R202). -/
def withCombo (x : Combo) (s : State) (go : Word → Host.Outcome State Fault Refusal) :
    Host.Outcome State Fault Refusal :=
  match comboValue x s with
  | some v => go v
  | none => raiseFault (.invalidOperand s.pc x.word)

end Sys2Proof.Machine
end

