-- ==== Sys2Proof/Machine/Bitwise.lean ====
section
/-! DEFINITION. The XOR and store-low-bits instructions bxl, bst, bxc (42_bitwise.md). -/

namespace Sys2Proof.Machine

/-- bxl: "B = B XOR literal" (R120). -/
def execBxl (x : PWord) (s : State) : Host.Outcome State Fault Refusal :=
  .next (advance (writeReg .b (s.b ^^^ literalValue x) s))

/-- bst: "B = combo mod 8" (R124). -/
def execBst (x : Combo) (s : State) : Host.Outcome State Fault Refusal :=
  withCombo x s fun v => .next (advance (writeReg .b (zext64 (low3 v)) s))

/-- bxc: "B = B XOR C (operand unused)" (R128); its operand word has been fetched and is ignored (R66). -/
def execBxc (_x : PWord) (s : State) : Host.Outcome State Fault Refusal :=
  .next (advance (writeReg .b (s.b ^^^ s.c) s))

end Sys2Proof.Machine
end

