-- ==== Sys2Proof/Machine/Flags.lean ====
section
/-! DEFINITION. VM3 has no flags, condition codes or status register (10_state.md R33): no operation computes one. The
only condition is the one jnz tests, on register A itself. -/

namespace Sys2Proof.Machine

/-- The condition of jnz: `A ≠ 0`, an unsigned 64-bit comparison with zero (R15, R140). -/
def jumpTaken (s : State) : Bool := decide (s.a ≠ 0#64)

end Sys2Proof.Machine
end

