-- ==== Sys2Proof/Machine/Jump.lean ====
section
/-! DEFINITION. The one control transfer, jnz (43_jump.md). -/

namespace Sys2Proof.Machine

/-- jnz: a taken jump sets pc to the literal and suppresses the advance; a jump not taken advances (R140, R143). The
target is not checked: a bad one faults at the next fetch (R142). -/
def execJnz (x : PWord) (s : State) : Host.Outcome State Fault Refusal :=
  .next (if jumpTaken s then jumpTo x s else advance s)

end Sys2Proof.Machine
end

