-- ==== Sys2Proof/Machine/Output.lean ====
section
/-! DEFINITION. The output instruction out (44_output.md). -/

namespace Sys2Proof.Machine

/-- Emits one 3-bit value: OutputOverflow before appending when the log is full, else the append and the advance
(R80 steps 4 and 5, R204). -/
def emit (v : PWord) (s : State) : Host.Outcome State Fault Refusal :=
  if outFull s then raiseFault (.outputOverflow s.pc) else .next (advance (outAppend v s))

/-- out: "append (combo mod 8) to output" (R150); the operand is checked before the capacity (R205). -/
def execOut (x : Combo) (s : State) : Host.Outcome State Fault Refusal :=
  withCombo x s fun v => emit (low3 v) s

end Sys2Proof.Machine
end

