-- ==== Sys2Proof/Machine/Shift.lean ====
section
/-! DEFINITION. The shift instructions adv, bdv, cdv (41_shift.md). -/

namespace Sys2Proof.Machine

/-- Register A shifted right by a combo operand, into register `dst`; every source is read before the write (R83). -/
def shiftAInto (dst : Reg) (x : Combo) (s : State) : Host.Outcome State Fault Refusal :=
  withCombo x s fun v => .next (advance (writeReg dst (shr64 s.a v) s))

/-- adv: "A = A >> combo" (R100). -/
def execAdv (x : Combo) (s : State) : Host.Outcome State Fault Refusal := shiftAInto .a x s

/-- bdv: "B = A >> combo" (R104). -/
def execBdv (x : Combo) (s : State) : Host.Outcome State Fault Refusal := shiftAInto .b x s

/-- cdv: "C = A >> combo" (R108). -/
def execCdv (x : Combo) (s : State) : Host.Outcome State Fault Refusal := shiftAInto .c x s

end Sys2Proof.Machine
end

