-- ==== Sys2Proof/Machine/Fetch.lean ====
section
/-! DEFINITION. Instruction fetch (40_execution_cycle.md R81, 20_memory.md R42–R46). -/

namespace Sys2Proof.Machine

/-- The opcode word at pc, then the operand word at `pc + 1`; ProgramBounds with the first index out of range. No
alignment is asked of pc (R28, R45), and both reads happen for every opcode (R46). -/
def fetchPair (s : State) : Except Fault (PWord × PWord) :=
  match memRead s s.pc with
  | none => .error (.programBounds s.pc s.pc)
  | some op =>
    match memRead s (s.pc + 1) with
    | none => .error (.programBounds s.pc (s.pc + 1))
    | some x => .ok (op, x)

end Sys2Proof.Machine
end

