-- ==== Sys2Proof/Machine/Step.lean ====
section
/-! DEFINITION. One step (40_execution_cycle.md R80) and the placing of an instruction where the next step fetches it. -/

namespace Sys2Proof.Machine

/-- STEP "executes exactly one instruction": fetch, decode, execute (R80). A fault leaves the state as it was (R85,
R86). -/
def step (s : State) : Host.Outcome State Fault Refusal :=
  match fetchPair s with
  | .error f => raiseFault f
  | .ok (op, x) => exec (decodePair op x) s

/-- `s` with the instruction of pair value `w` (its low `nbits` bits) at the program counter: it stands for the host
having loaded a program that holds it there (log entry 4). -/
def State.withFetchWord (s : State) (nbits w : Nat) : State :=
  { s with prog := placePair s.pc (pairOpcode (w % 2 ^ nbits)) (pairOperand (w % 2 ^ nbits)) s.prog }

end Sys2Proof.Machine
end

