-- ==== Sys2Proof/Machine/Assembly.lean ====
section
/-! DEFINITION. The spec's assembly syntax, `<mnemonic> <operand>` (30_encoding.md R71). -/

namespace Sys2Proof.Machine

/-- One line of assembly: a mnemonic and the operand's one character (R71). -/
structure AsmLine where
  mnemonic : String
  operand : Char
  deriving DecidableEq, Repr

/-- The operand word as one decimal digit (R71). -/
def operandDigit (x : PWord) : Char := Char.ofNat (48 + x.toNat)

/-- The operand word a digit `0`–`7` writes (R71). -/
def digitWord (d : Char) : Option PWord :=
  if 48 ≤ d.toNat ∧ d.toNat ≤ 55 then some (BitVec.ofNat 3 (d.toNat - 48)) else none

/-- A combo operand's character: a digit, or a register's letter for 4, 5, 6 (R71). -/
def comboChar (d : Char) : Option PWord :=
  if d = 'A' then some 4#3
  else if d = 'B' then some 5#3
  else if d = 'C' then some 6#3
  else digitWord d

/-- The line that writes an instruction, its operand as a digit (R71). -/
def disassemble (i : Instr) : AsmLine := { mnemonic := i.mnemonic, operand := operandDigit i.operandWord }

/-- The line as text, `<mnemonic> <operand>` (R71). -/
def AsmLine.render (l : AsmLine) : String := l.mnemonic ++ " " ++ l.operand.toString

/-- The instruction a line writes; letters are read for combo operands only (R71, log entry 11). -/
def assemble (l : AsmLine) : Option Instr :=
  if l.mnemonic = "adv" then (comboChar l.operand).map fun x => .adv (decodeCombo x)
  else if l.mnemonic = "bxl" then (digitWord l.operand).map .bxl
  else if l.mnemonic = "bst" then (comboChar l.operand).map fun x => .bst (decodeCombo x)
  else if l.mnemonic = "jnz" then (digitWord l.operand).map .jnz
  else if l.mnemonic = "bxc" then (digitWord l.operand).map .bxc
  else if l.mnemonic = "out" then (comboChar l.operand).map fun x => .out (decodeCombo x)
  else if l.mnemonic = "bdv" then (comboChar l.operand).map fun x => .bdv (decodeCombo x)
  else if l.mnemonic = "cdv" then (comboChar l.operand).map fun x => .cdv (decodeCombo x)
  else none

/-- The program words of a listing (R72), none if some line writes no instruction. -/
def assembleAll : List AsmLine → Option (List PWord)
  | [] => some []
  | l :: rest =>
    match assemble l, assembleAll rest with
    | some i, some ws => some (encode i ++ ws)
    | _, _ => none

end Sys2Proof.Machine
end

