-- ==== Sys2Proof/Machine/Commands.lean ====
section
/-! DEFINITION. The host command interface (45_host_commands.md, 70_reset_and_hazards.md): NEW, RESTART, RESTART_A, STEP,
RUN, FINISHED and the read ports, over an engine that may not exist yet. -/

namespace Sys2Proof.Machine

/-- The commands of the host (R160–R173). NEW takes raw numbers as program words, so that its check of R161 has
something to refuse (log entry 9). -/
inductive Command where
  /-- `NEW(a, b, c, prog)` (R160) -/
  | new (a b c : Word) (prog : List Nat)
  /-- `RESTART()` (R163) -/
  | restart
  /-- `RESTART_A(v)` (R167) -/
  | restartA (v : Word)
  /-- `STEP()` (R168) -/
  | step
  /-- `RUN(fuel)`: `none` is unbounded (R11, R170) -/
  | run (fuel : Option Nat)
  /-- `FINISHED()` (R172) -/
  | finished
  /-- `READ_A()` (R173) -/
  | readA
  /-- `READ_B()` (R173) -/
  | readB
  /-- `READ_C()` (R173) -/
  | readC
  /-- `READ_PC()` (R173) -/
  | readPc
  /-- `READ_OUT()` (R173) -/
  | readOut
  deriving DecidableEq, Repr

/-- What a command returns: one of the outcomes of R17, or the value a query or a read port gives (R172, R173). -/
inductive Response where
  | ok
  | finished
  | fault (f : Fault)
  | notTerminated
  | refused (r : Refusal)
  | truth (b : Bool)
  | word (v : Word)
  | index (n : Nat)
  | log (vs : List PWord)
  deriving DecidableEq, Repr

/-- An engine from the host's side: before NEW there is no instance, hence no machine state (R232). -/
abbrev Engine := Option State

/-- `MAX_PROG_LEN = some m and |prog| > m` (R160). -/
def tooLong (cfg : Config) (n : Nat) : Bool :=
  match cfg.maxProgLen with
  | none => false
  | some m => decide (m < n)

/-- NEW: the two refusals in R160's order, else the fresh instance (R160, R161). -/
def newInstance (cfg : Config) (a b c : Word) (prog : List Nat) : Except Refusal State :=
  if prog.any (fun w => decide (7 < w)) then .error .wordOutOfRange
  else if tooLong cfg prog.length then .error .programTooLong
  else .ok (State.fresh cfg a b c (prog.map (BitVec.ofNat 3)))

/-- RESTART: registers from the snapshot, pc 0, output cleared (R163). -/
def restart (s : State) : State := { s with a := s.a0, b := s.b0, c := s.c0, pc := 0, out := [] }

/-- RESTART_A: as RESTART, but A takes the given value; the snapshot, A0 included, is unchanged (R167). -/
def restartA (v : Word) (s : State) : State := { restart s with a := v }

/-- STEP as a command: a committed step answers Ok; a fault is reported and the state stays (R86, R168). -/
def stepCommand (s : State) : Response × State :=
  match step s with
  | .next t => (.ok, t)
  | .fault f => (.fault f, s)
  | .refused r => (.refused r, s)

/-- RUN with `fuel = some k`: finished is checked before each step and before the fuel; the first fault ends the run
with every earlier step committed (R170, R171, R208). -/
def runFor (k : Nat) (s : State) : Response × State :=
  if finished s then (.finished, s)
  else
    match k with
    | 0 => (.notTerminated, s)
    | k + 1 =>
      match step s with
      | .next t => runFor k t
      | .fault f => (.fault f, s)
      | .refused r => (.refused r, s)

/-- RUN with `fuel = none`, looked at for `patience` steps: its answer if it has returned by then, else none. No answer
says only "not yet": the unbounded run is cut off nowhere (R170, R238, log entry 8). -/
def runUnbounded (patience : Nat) (s : State) : Option (Response × State) :=
  match runFor patience s with
  | (.notTerminated, _) => none
  | answer => some answer

/-- A command to an engine: what it answers and the engine after it; none when an unbounded RUN has not returned within
`patience` steps. NEW makes an instance with the parameters `cfg`; a refusal changes nothing (R175). -/
def issue (cfg : Config) (patience : Nat) (e : Engine) (cmd : Command) : Option (Response × Engine) :=
  match cmd, e with
  | .new a b c prog, _ =>
    match newInstance cfg a b c prog with
    | .ok s => some (.ok, some s)
    | .error r => some (.refused r, e)
  | _, none => some (.refused .noInstance, none)
  | .restart, some s => some (.ok, some (restart s))
  | .restartA v, some s => some (.ok, some (restartA v s))
  | .step, some s => some ((stepCommand s).1, some (stepCommand s).2)
  | .run (some k), some s => some ((runFor k s).1, some (runFor k s).2)
  | .run none, some s => (runUnbounded patience s).map fun p => (p.1, some p.2)
  | .finished, some s => some (.truth (finished s), some s)
  | .readA, some s => some (.word (readReg .a s), some s)
  | .readB, some s => some (.word (readReg .b s), some s)
  | .readC, some s => some (.word (readReg .c s), some s)
  | .readPc, some s => some (.index s.pc, some s)
  | .readOut, some s => some (.log s.out, some s)

/-- The command returns with this answer, after however many steps. -/
def Answers (cfg : Config) (e : Engine) (cmd : Command) (r : Response) (e' : Engine) : Prop :=
  ∃ patience, issue cfg patience e cmd = some (r, e')

/-- RUN(none) never returns from this state: an allowed behaviour (R238). -/
def NeverReturns (s : State) : Prop := ∀ patience, runUnbounded patience s = none

/-- Commands to one engine are serialized: each runs to completion before the next begins (R174). The engine after all
of them, none while one has not returned. -/
def issueAll (cfg : Config) (patience : Nat) (e : Engine) : List Command → Option Engine
  | [] => some e
  | cmd :: rest =>
    match issue cfg patience e cmd with
    | none => none
    | some (_, e') => issueAll cfg patience e' rest

/-- A host with several engines issues a command to the `j`-th of them: the others are not touched (R54, R214, log
entry 10). -/
def issueAt (cfg : Config) (patience : Nat) (engines : List Engine) (j : Nat) (cmd : Command) :
    Option (Response × List Engine) :=
  match engines[j]? with
  | none => none
  | some e => (issue cfg patience e cmd).map fun p => (p.1, engines.set j p.2)

end Sys2Proof.Machine
end

