-- ==== Sys2Proof/Machine/Reference.lean ====
section
/-! DEFINITION. R80's STEP algorithm transcribed over natural numbers, in its own order of checks and with the fault
order of R205: a second reading of 40_execution_cycle.md that shares no operation with the machine. Its program words
are any numbers, so it also holds the reserved InvalidOpcode path of R203. On numbers the hardware cannot hold (an
operand word above 7, a register of `2^64` or more) what it computes is the model's choice (log entry 14). -/

namespace Sys2Proof.Machine.Reference

/-- The state of R20 as plain numbers: registers below `2^64`, words below 8. -/
structure RefState where
  A : Nat
  B : Nat
  C : Nat
  pc : Nat
  out : List Nat
  P : List Nat
  deriving DecidableEq, Repr

/-- R63's operand kinds. -/
inductive Kind where
  | combo
  | literal
  | unused
  deriving DecidableEq, Repr

/-- `kind(op)` (R63). -/
def kind (op : Nat) : Kind :=
  if op = 1 ∨ op = 3 then .literal else if op = 4 then .unused else .combo

/-- `shr64` on numbers: the floor of `v / 2^n` below 64, else 0 (R16). -/
def shr (v n : Nat) : Nat := if n < 64 then v / 2 ^ n else 0

/-- `combo(x)` for `x` below 7 (R65). For `x` above 7, which the spec leaves open at a step, it is `x` itself: DESIGN
CHOICE, log entry 14. -/
def combo (x : Nat) (s : RefState) : Nat :=
  if x = 4 then s.A else if x = 5 then s.B else if x = 6 then s.C else x

/-- The operand value of R80 step 2. A literal above 7, which the spec leaves open at a step, is the number itself: DESIGN
CHOICE, log entry 14. -/
def operand (op x : Nat) (s : RefState) : Nat :=
  match kind op with
  | .combo => combo x s
  | .literal => x
  | .unused => 0

/-- `Exec(op, x, v, s)`'s next registers, next pc and emitted value (R89). -/
def execute (op v : Nat) (s : RefState) : RefState × Option Nat :=
  let n := { s with pc := s.pc + 2 }
  if op = 0 then ({ n with A := shr s.A v }, none)
  else if op = 1 then ({ n with B := s.B ^^^ v }, none)
  else if op = 2 then ({ n with B := v % 8 }, none)
  else if op = 3 then (if s.A ≠ 0 then { s with pc := v } else n, none)
  else if op = 4 then ({ n with B := s.B ^^^ s.C }, none)
  else if op = 5 then (n, some (v % 8))
  else if op = 6 then ({ n with B := shr s.A v }, none)
  else ({ n with C := shr s.A v }, none)

/-- The outcome of one step: the next state, or the fault with its code and record (R200). -/
inductive RefOutcome where
  | ok (s : RefState)
  | fault (f : Fault)
  deriving DecidableEq, Repr

/-- `STEP(s)` (R80), its checks in R205's order, with the parameter `out_capacity`. R203 fixes what happens at an opcode
above 7: InvalidOpcode. At an operand above 7 the spec fixes nothing (D1 and U3 refuse it at NEW), and this algorithm goes
on with the number as its literal or combo value: DESIGN CHOICE, log entry 14. No machine state abstracts to such a
program, so the machine's step never takes that path. -/
def STEP (cap : Option Nat) (s : RefState) : RefOutcome :=
  if s.P.length ≤ s.pc then .fault (.programBounds s.pc s.pc)
  else if s.P.length ≤ s.pc + 1 then .fault (.programBounds s.pc (s.pc + 1))
  else
    let op := s.P.getD s.pc 0
    let x := s.P.getD (s.pc + 1) 0
    if 7 < op then .fault (.invalidOpcode s.pc op)
    else if kind op = .combo ∧ x = 7 then .fault (.invalidOperand s.pc 7#3)
    else
      match execute op (operand op x s) s with
      | (n, none) => .ok n
      | (n, some e) =>
        match cap with
        | none => .ok { n with out := s.out ++ [e] }
        | some k => if k ≤ s.out.length then .fault (.outputOverflow s.pc) else .ok { n with out := s.out ++ [e] }

/-- The numbers a machine state stands for. -/
def abstr (s : State) : RefState :=
  { A := s.a.toNat, B := s.b.toNat, C := s.c.toNat, pc := s.pc,
    out := s.out.map BitVec.toNat, P := s.prog.map BitVec.toNat }

/-- A machine's outcome as the reference gives it; `none` for a refusal, which the reference does not have. -/
def abstrOutcome : Host.Outcome State Fault Refusal → Option RefOutcome
  | .next t => some (.ok (abstr t))
  | .fault f => some (.fault f)
  | .refused _ => none

end Sys2Proof.Machine.Reference
end

