-- ==== Sys2Proof/Safety.lean ====
section
/-! DEFINITION. What the claims about whole runs are stated in: the invariant of an instance, and when a step can be
taken. -/

namespace Sys2Proof.Machine

/-- The invariant of an instance: pc stays within `0 .. max(L, 7)` (R26), the program is one NEW accepts (R161), and a
bounded output log never holds more than its capacity (R10, R204). -/
structure State.Inv (s : State) : Prop where
  pcRange : s.pc ≤ max (progLen s) 7
  progFits : Memory.wf s.cfg s.prog = true
  outFits : ∀ n, s.cfg.outCapacity = some n → s.out.length ≤ n

/-- A step changes nothing of an instance but A, B, C, pc and the output log (R30, R31, R88). -/
def sameInstance (s t : State) : Prop :=
  t.prog = s.prog ∧ t.a0 = s.a0 ∧ t.b0 = s.b0 ∧ t.c0 = s.c0 ∧ t.cfg = s.cfg

/-- An instruction that can commit in a state: its operand is not the reserved one (R69), and if it is out, the log has
room (R204). -/
def canCommit (i : Instr) (s : State) : Bool :=
  i.wellFormed &&
    match i with
    | .out _ => !outFull s
    | .adv _ | .bxl _ | .bst _ | .jnz _ | .bxc _ | .bdv _ | .cdv _ => true

end Sys2Proof.Machine
end

