-- ==== Sys2Proof/Certificates/Slice0/Obligations.lean ====
section
/-! DEFINITION. The statements about the model, from the numbered rules of spec/. A docstring names the rule a statement
formalises; where a clause rests on one of the spec's own decisions (92_eei_decisions.md D<n>) or on the model's choice
(log entry <n>) it says so. -/

open Sys2Proof Sys2Proof.Machine

/-! ### Encoding -/

/-- Words written out from R62's notation and from 95_test_vectors.md decode to the instruction they stand for, one of
each opcode and one of each combo form. -/
def Obligations.WordsDecodeAsTheSpecWritesThem : Prop :=
  decode [0#3, 3#3] = .ok (.adv (.lit 3#2), []) ∧ decode [1#3, 7#3] = .ok (.bxl 7#3, []) ∧
  decode [2#3, 6#3] = .ok (.bst (.reg .c), []) ∧ decode [3#3, 0#3] = .ok (.jnz 0#3, []) ∧
  decode [4#3, 7#3] = .ok (.bxc 7#3, []) ∧ decode [5#3, 4#3] = .ok (.out (.reg .a), []) ∧
  decode [6#3, 5#3] = .ok (.bdv (.reg .b), []) ∧ decode [7#3, 7#3] = .ok (.cdv .reserved, []) ∧
  decodeTableWord 6 0o03 = some (.adv (.lit 3#2)) ∧ decodeTableWord 6 0o30 = some (.jnz 0#3)

/-- R60: every instruction is two consecutive words; one word, or none, is no instruction. -/
def Obligations.EveryInstructionIsTwoWords : Prop :=
  (∀ i : Instr, (encode i).length = 2) ∧
  (∀ ws i rest, decode ws = .ok (i, rest) → ws.length = rest.length + 2) ∧
  decode [] = .error .noOpcode ∧ (∀ w, decode [w] = .error .noOperand) ∧
  (∀ op x rest, ∃ i, decode (op :: x :: rest) = .ok (i, rest))

/-- R67, R68: each of the 64 pair values falls under exactly one row of the opcode table, and the decoder reads that
row's instruction from it. -/
def Obligations.OpcodeTableCoversEveryPairOnce : Prop :=
  ∀ pv : BitVec 6, ∃ i r, decodeTableWord 6 pv.toNat = some i ∧
    encodingTable.filter (fun q => q.covers pv) = [r] ∧ r.mnemonic = i.mnemonic

/-- For every instruction, the reserved ones too, decoding its words gives it back, whatever follows. -/
def Obligations.DecodeOfEncode : Prop :=
  ∀ (i : Instr) (rest : List PWord), decode (encode i ++ rest) = .ok (i, rest)

/-- Whatever words decode to an instruction are that instruction's own words: each pair has one meaning, and no bit of it
is dropped. -/
def Obligations.EncodeOfDecode : Prop :=
  ∀ (ws : List PWord) (i : Instr) (rest : List PWord), decode ws = .ok (i, rest) → ws = encode i ++ rest

/-- The wide decoder agrees with the 3-bit one on words 0–7 and refuses an opcode above 7, then an operand above 7, each
by its own name. This decoder is the model's choice (log entry 9): the spec refuses such words at NEW (decision D1: "A
model with a wider word type refuses such a program at NEW"), and that is `Obligations.NewRefusesBadPrograms`. -/
def Obligations.WideDecoderRefusesLargeWords : Prop :=
  (∀ ws : List PWord, decodeRaw (ws.map BitVec.toNat) =
    (decode ws).map fun p => (p.1, p.2.map BitVec.toNat)) ∧
  (∀ op x rest, 7 < op → decodeRaw (op :: x :: rest) = .error (.opcodeOutOfRange op)) ∧
  (∀ op x rest, op ≤ 7 → 7 < x → decodeRaw (op :: x :: rest) = .error (.operandOutOfRange x))

/-- The line written for an instruction assembles to it, and a combo operand may be written A, B or C for 4, 5 or 6
(spec's decision D14: "with `A`/`B`/`C` allowed for combo 4/5/6"). -/
def Obligations.AssemblyReadsBack : Prop :=
  (∀ i : Instr, assemble (disassemble i) = some i) ∧
  (∀ m ∈ ["adv", "bst", "out", "bdv", "cdv"],
    assemble ⟨m, 'A'⟩ = assemble ⟨m, '4'⟩ ∧ assemble ⟨m, 'B'⟩ = assemble ⟨m, '5'⟩ ∧
    assemble ⟨m, 'C'⟩ = assemble ⟨m, '6'⟩) ∧
  assemble ⟨"adv", 'B'⟩ = some (.adv (.reg .b))

/-! ### Operands -/

/-- The operand values of R64 and R65: a literal is its own value in `[0, 7]`; combo words 0–3 are literals, 4, 5, 6 the
whole live registers A, B, C. That word 7 raises InvalidOperand(pc, 7) is the spec's decision D3. -/
def Obligations.OperandsResolveByTheTable : Prop :=
  (∀ x : PWord, (literalValue x).toNat = x.toNat ∧ (literalValue x).toNat ≤ 7) ∧
  ∀ s : State,
    (∀ k : PWord, k.toNat ≤ 3 → comboValue (decodeCombo k) s = some (BitVec.ofNat 64 k.toNat)) ∧
    comboValue (decodeCombo 4#3) s = some s.a ∧ comboValue (decodeCombo 5#3) s = some s.b ∧
    comboValue (decodeCombo 6#3) s = some s.c ∧
    ∀ go, withCombo (decodeCombo 7#3) s go = .fault (.invalidOperand s.pc 7#3)

/-! ### Results: what each instruction does, and that it completes -/

/-- adv (41_shift.md, opcode 0) shifts A right by its combo operand into A; nothing else but pc changes. Lean's `>>>`
gives 0 for amounts of 64 and more, as the spec's decision D2 has it: "`shr64(v, n) = 0` for `n ≥ 64`". -/
def Obligations.AdvShiftsAIntoA : Prop :=
  (∀ k : PWord, decodePair 0#3 k = .adv (decodeCombo k)) ∧
  ∀ (s : State) (x : Combo) (v : Word), comboValue x s = some v →
    exec (.adv x) s = .next { s with a := s.a >>> v.toNat, pc := s.pc + 2 }

/-- bdv (41_shift.md, opcode 6) shifts A right by its combo operand into B; nothing else but pc changes (from 64 on by
the spec's decision D2: "`shr64(v, n) = 0` for `n ≥ 64`"). -/
def Obligations.BdvShiftsAIntoB : Prop :=
  (∀ k : PWord, decodePair 6#3 k = .bdv (decodeCombo k)) ∧
  ∀ (s : State) (x : Combo) (v : Word), comboValue x s = some v →
    exec (.bdv x) s = .next { s with b := s.a >>> v.toNat, pc := s.pc + 2 }

/-- cdv (41_shift.md, opcode 7) shifts A right by its combo operand into C; nothing else but pc changes (from 64 on by
the spec's decision D2: "`shr64(v, n) = 0` for `n ≥ 64`"). -/
def Obligations.CdvShiftsAIntoC : Prop :=
  (∀ k : PWord, decodePair 7#3 k = .cdv (decodeCombo k)) ∧
  ∀ (s : State) (x : Combo) (v : Word), comboValue x s = some v →
    exec (.cdv x) s = .next { s with c := s.a >>> v.toNat, pc := s.pc + 2 }

/-- R120: bxl XORs its zero-extended literal into B; nothing else but pc changes. -/
def Obligations.BxlXorsLiteralIntoB : Prop :=
  (∀ k : PWord, decodePair 1#3 k = .bxl k) ∧
  ∀ (s : State) (x : PWord),
    exec (.bxl x) s = .next { s with b := s.b ^^^ BitVec.ofNat 64 x.toNat, pc := s.pc + 2 }

/-- bst (42_bitwise.md, opcode 2) puts its combo operand mod 8 into B; nothing else but pc changes. -/
def Obligations.BstStoresLowBitsInB : Prop :=
  (∀ k : PWord, decodePair 2#3 k = .bst (decodeCombo k)) ∧
  ∀ (s : State) (x : Combo) (v : Word), comboValue x s = some v →
    exec (.bst x) s = .next { s with b := BitVec.ofNat 64 (v.toNat % 8), pc := s.pc + 2 }

/-- R128: bxc XORs C into B, whatever its operand word; nothing else but pc changes. -/
def Obligations.BxcXorsCIntoB : Prop :=
  (∀ k : PWord, decodePair 4#3 k = .bxc k) ∧
  ∀ (s : State) (x : PWord), exec (.bxc x) s = .next { s with b := s.b ^^^ s.c, pc := s.pc + 2 }

/-- R140: jnz goes to its literal when A is not zero and advances by 2 when it is; nothing but pc changes. -/
def Obligations.JnzJumpsWhenANonzero : Prop :=
  (∀ k : PWord, decodePair 3#3 k = .jnz k) ∧
  ∀ (s : State) (x : PWord),
    (s.a ≠ 0#64 → exec (.jnz x) s = .next { s with pc := x.toNat }) ∧
    (s.a = 0#64 → exec (.jnz x) s = .next { s with pc := s.pc + 2 })

/-- out (44_output.md, opcode 5) appends its combo operand mod 8 at the end of the log and changes nothing else but pc; it
is the only instruction that writes the log. The log has room: its capacity is unbounded, or not reached (spec's
decision D9). -/
def Obligations.OutAppendsLowBits : Prop :=
  (∀ k : PWord, decodePair 5#3 k = .out (decodeCombo k)) ∧
  (∀ (s : State) (x : Combo) (v : Word), comboValue x s = some v →
    (∀ n, s.cfg.outCapacity = some n → s.out.length < n) →
    exec (.out x) s = .next { s with out := s.out ++ [BitVec.ofNat 3 (v.toNat % 8)], pc := s.pc + 2 }) ∧
  (∀ (s t : State) (i : Instr), exec i s = .next t → t.out ≠ s.out → ∃ x, i = .out x)

/-- The three shifts are truncating unsigned division of A by `2^combo` for every amount. For amounts of 64 and more this
rests on the spec's decision D2: "`shr64(v, n) = 0` for `n ≥ 64`". -/
def Obligations.ShiftsDivideByAPowerOfTwo : Prop :=
  ∀ (s : State) (x : Combo) (v : Word), comboValue x s = some v →
    (∃ t, exec (.adv x) s = .next t ∧ t.a.toNat = s.a.toNat / 2 ^ v.toNat) ∧
    (∃ t, exec (.bdv x) s = .next t ∧ t.b.toNat = s.a.toNat / 2 ^ v.toNat) ∧
    (∃ t, exec (.cdv x) s = .next t ∧ t.c.toNat = s.a.toNat / 2 ^ v.toNat)

/-- Shifting A by A gives 0 for every A, in each of the three shifts (for A of 64 and more by the spec's decision D2). -/
def Obligations.ShiftingAByItselfGivesZero : Prop :=
  ∀ s : State,
    exec (.adv (.reg .a)) s = .next { s with a := 0#64, pc := s.pc + 2 } ∧
    exec (.bdv (.reg .a)) s = .next { s with b := 0#64, pc := s.pc + 2 } ∧
    exec (.cdv (.reg .a)) s = .next { s with c := 0#64, pc := s.pc + 2 }

/-- An instruction whose combo operand names the register it writes uses the old value (R83; amounts from 64 on by
the spec's decision D2). -/
def Obligations.OperandsAreReadBeforeTheWrite : Prop :=
  ∀ s : State,
    exec (.adv (.reg .a)) s = .next { s with a := s.a >>> s.a.toNat, pc := s.pc + 2 } ∧
    exec (.bdv (.reg .b)) s = .next { s with b := s.a >>> s.b.toNat, pc := s.pc + 2 } ∧
    exec (.cdv (.reg .c)) s = .next { s with c := s.a >>> s.c.toNat, pc := s.pc + 2 } ∧
    exec (.bst (.reg .b)) s = .next { s with b := BitVec.ofNat 64 (s.b.toNat % 8), pc := s.pc + 2 }

/-- bxl keeps bits 63 to 3 of B, and applying it twice restores B. -/
def Obligations.BxlTwiceRestoresB : Prop :=
  ∀ (s t u : State) (x : PWord), exec (.bxl x) s = .next t → exec (.bxl x) t = .next u →
    u.b = s.b ∧ t.b.toNat / 8 = s.b.toNat / 8

/-! ### Where the instructions fault -/

/-- Each combo instruction with operand word 7 faults with InvalidOperand and the record `(pc, 7)`, even when the log is
full (spec's decisions D3: "The check comes after both fetches and before any write", D21). -/
def Obligations.ReservedOperandFaults : Prop :=
  ∀ s : State,
    exec (.adv (decodeCombo 7#3)) s = .fault (.invalidOperand s.pc 7#3) ∧
    exec (.bst (decodeCombo 7#3)) s = .fault (.invalidOperand s.pc 7#3) ∧
    exec (.out (decodeCombo 7#3)) s = .fault (.invalidOperand s.pc 7#3) ∧
    exec (.bdv (decodeCombo 7#3)) s = .fault (.invalidOperand s.pc 7#3) ∧
    exec (.cdv (decodeCombo 7#3)) s = .fault (.invalidOperand s.pc 7#3)

/-- out on a bounded and full log faults with OutputOverflow before appending; on an unbounded log it never does (spec's
decision D9: "an out step at `|out| ≥ n` faults with OutputOverflow"). -/
def Obligations.OutOnAFullLogOverflows : Prop :=
  (∀ (s : State) (x : Combo) (v : Word) (n : Nat), comboValue x s = some v → s.cfg.outCapacity = some n →
    n ≤ s.out.length → exec (.out x) s = .fault (.outputOverflow s.pc)) ∧
  (∀ (s : State) (p : Nat), s.cfg.outCapacity = none → step s ≠ .fault (.outputOverflow p))

/-! ### Frames -/

/-- The register instructions: every register but the destination, the log, the snapshot, the parameters and every word
of program memory are unchanged. -/
def Obligations.RegisterInstructionsFrame : Prop :=
  ∀ (s t : State) (i : Instr), exec i s = .next t →
    ((∃ x, i = .adv x) → t.b = s.b ∧ t.c = s.c) ∧
    ((∃ x, i = .bdv x) ∨ (∃ x, i = .bxl x) ∨ (∃ x, i = .bst x) ∨ (∃ x, i = .bxc x) → t.a = s.a ∧ t.c = s.c) ∧
    ((∃ x, i = .cdv x) → t.a = s.a ∧ t.b = s.b) ∧
    ((¬ ∃ x, i = .jnz x) → (¬ ∃ x, i = .out x) →
      t.out = s.out ∧ sameInstance s t ∧ ∀ j, memRead t j = memRead s j)

/-- jnz and out: every register, the snapshot, the parameters and every word of program memory are unchanged; jnz leaves
the log unchanged, and out leaves every entry the log had. -/
def Obligations.JnzAndOutFrame : Prop :=
  ∀ (s t : State) (i : Instr), exec i s = .next t → ((∃ x, i = .jnz x) ∨ ∃ x, i = .out x) →
    t.a = s.a ∧ t.b = s.b ∧ t.c = s.c ∧ sameInstance s t ∧ (∀ j, memRead t j = memRead s j) ∧
    ((∃ x, i = .jnz x) → t.out = s.out) ∧
    ((∃ x, i = .out x) → t.out.length = s.out.length + 1 ∧ ∀ j, j < s.out.length → t.out[j]? = s.out[j]?)

/-! ### The step -/

/-- When the words at pc decode to an instruction, the step is that instruction's effect; the advance past the two words
is part of it (R84), so the step adds nothing around exec. -/
def Obligations.StepRunsTheDecodedInstruction : Prop :=
  ∀ (s : State) (i : Instr) (rest : List PWord), decode (s.prog.drop s.pc) = .ok (i, rest) → step s = exec i s

/-- An instruction placed at pc is the one the next step runs, from any state (the model's reading of loading a program,
log entry 4). -/
def Obligations.PlacedInstructionRunsNext : Prop :=
  ∀ (s : State) (i : Instr),
    step (s.withFetchWord 6 i.pairValue) = exec i (s.withFetchWord 6 i.pairValue) ∧
    step (s.withFetchWord 8 i.pairValue) = exec i (s.withFetchWord 8 i.pairValue)

/-- R81: ProgramBounds on the opcode index first, then on the operand index, for every opcode; the record is the first
index out of range; with both words present the fetch gives them. -/
def Obligations.FetchChecksBothIndexes : Prop :=
  ∀ s : State,
    (progLen s ≤ s.pc → step s = .fault (.programBounds s.pc s.pc)) ∧
    (s.pc + 1 = progLen s → step s = .fault (.programBounds s.pc (s.pc + 1))) ∧
    (∀ op x, memRead s s.pc = some op → memRead s (s.pc + 1) = some x → fetchPair s = .ok (op, x))

/-- A step commits exactly when both words lie within the program, the operand is not a reserved one, and an out has
room (R80, R205; spec's decisions D3, D9). -/
def Obligations.StepCommitsExactlyWhen : Prop :=
  ∀ s : State, (∃ t, step s = .next t) ↔
    ∃ op x, memRead s s.pc = some op ∧ memRead s (s.pc + 1) = some x ∧ canCommit (decodePair op x) s = true

/-- The faults after the fetch, in R205's order: InvalidOperand on a combo opcode (0, 2, 5, 6, 7) with operand word 7,
whatever the log; then OutputOverflow on out with a full log (spec's decisions D3, D9, D21). -/
def Obligations.FaultsAfterTheFetch : Prop :=
  ∀ (s : State) (op x : PWord), memRead s s.pc = some op → memRead s (s.pc + 1) = some x →
    (op ∈ [0#3, 2#3, 5#3, 6#3, 7#3] → x = 7#3 → step s = .fault (.invalidOperand s.pc 7#3)) ∧
    (∀ n, op = 5#3 → x ≠ 7#3 → s.cfg.outCapacity = some n → n ≤ s.out.length →
      step s = .fault (.outputOverflow s.pc)) ∧
    (op ∈ [1#3, 3#3, 4#3] → ∃ t, step s = .next t)

/-- No step is refused, and every fault is one of three with R200's code and record: never the reserved InvalidOpcode,
whose code is 3 (spec's decisions D1, D20, D28). -/
def Obligations.EveryFaultHasItsCodeAndRecord : Prop :=
  (∀ p w, (Fault.invalidOpcode p w).code = 3) ∧
  ∀ s : State, (∀ r, step s ≠ .refused r) ∧
    ∀ f, step s = .fault f →
      (f.code = 1 ∧ ((progLen s ≤ s.pc ∧ f = .programBounds s.pc s.pc) ∨
        (s.pc + 1 = progLen s ∧ f = .programBounds s.pc (s.pc + 1)))) ∨
      (f.code = 2 ∧ s.pc + 1 < progLen s ∧ f = .invalidOperand s.pc 7#3) ∨
      (f.code = 4 ∧ s.pc + 1 < progLen s ∧ f = .outputOverflow s.pc)

/-- R84: a step that commits advances pc by 2, but for a jnz with A not zero, which sets pc to its literal; a step that
faults leaves pc unchanged. -/
def Obligations.PcAdvancesByTwoUnlessJumping : Prop :=
  (∀ (s t : State) (op x : PWord), step s = .next t → memRead s s.pc = some op → memRead s (s.pc + 1) = some x →
    t.pc = if op = 3#3 ∧ s.a ≠ 0#64 then x.toNat else s.pc + 2) ∧
  (∀ (s t : State) (f : Fault), stepCommand s = (.fault f, t) → t.pc = s.pc)

/-- A faulting step leaves the state as it was, so that the step again faults with the same fault and record (R85, R86;
spec's decisions D3, D9). -/
def Obligations.FaultChangesNothingAndRepeats : Prop :=
  ∀ (s t : State) (f : Fault), stepCommand s = (.fault f, t) → t = s ∧ stepCommand t = (.fault f, t)

/-- A jump outside the program is accepted by the jnz; the next step faults, at the opcode index for a target beyond L
and at the operand index for L - 1, and a target equal to L is finished (R141, R142; spec's decision D8). -/
def Obligations.BadJumpTargetFaultsAtTheNextStep : Prop :=
  ∀ (s : State) (x : PWord), s.a ≠ 0#64 → ∃ t, exec (.jnz x) s = .next t ∧ t.pc = x.toNat ∧
    (x.toNat = progLen s → finished t = true) ∧
    (progLen s < x.toNat → finished t = false ∧ step t = .fault (.programBounds x.toNat x.toNat)) ∧
    (x.toNat + 1 = progLen s → step t = .fault (.programBounds x.toNat (x.toNat + 1)))

/-! ### Whole-machine rules -/

/-- Only adv changes A, only cdv changes C, and adv, jnz, out and cdv leave B alone: read off the opcode word at pc. -/
def Obligations.OnlyItsOwnInstructionsWriteARegister : Prop :=
  ∀ s t : State, step s = .next t →
    (t.a ≠ s.a → memRead s s.pc = some 0#3) ∧
    (t.c ≠ s.c → memRead s s.pc = some 7#3) ∧
    (t.b ≠ s.b → ∃ op, memRead s s.pc = some op ∧ op ∈ [1#3, 2#3, 4#3, 6#3])

/-- No command but NEW changes the program, the snapshot or the parameters of an instance, and none destroys it. -/
def Obligations.ProgramAndSnapshotNeverChange : Prop :=
  ∀ (cfg : Config) (p : Nat) (s : State) (cmd : Command) (r : Response) (e : Engine),
    (∀ a b c prog, cmd ≠ .new a b c prog) → issue cfg p (some s) cmd = some (r, e) →
    ∃ t, e = some t ∧ sameInstance s t

/-- R43: an append goes after the last entry; no step, run, query or read changes an earlier entry or removes one; NEW,
RESTART and RESTART_A clear the log. -/
def Obligations.OutputLogOnlyGrows : Prop :=
  (∀ (v : PWord) (s : State), (outAppend v s).out = s.out ++ [v]) ∧
  (∀ (cfg : Config) (p : Nat) (s t : State) (cmd : Command) (r : Response),
    issue cfg p (some s) cmd = some (r, some t) →
    (s.out <+: t.out) ∨ (t.out = [] ∧ ((∃ a b c prog, cmd = .new a b c prog) ∨ cmd = .restart ∨ ∃ v, cmd = .restartA v))) ∧
  (∀ (cfg : Config) (p : Nat) (e : Engine) (t : State) (a b c v : Word) (prog : List Nat),
    (issue cfg p e (.new a b c prog) = some (.ok, some t) ∨ (∃ s, e = some s ∧
      (issue cfg p e .restart = some (.ok, some t) ∨ issue cfg p e (.restartA v) = some (.ok, some t)))) →
    t.out = [])

/-- R88: the outcome and the next A, B, C, pc and log of a step depend on A, B, C, pc, the log, the program and the log's
capacity alone; the snapshot cannot be seen. -/
def Obligations.StepDependsOnVisibleStateOnly : Prop :=
  ∀ s t : State, t.a = s.a → t.b = s.b → t.c = s.c → t.pc = s.pc → t.out = s.out → t.prog = s.prog →
    t.cfg.outCapacity = s.cfg.outCapacity →
    (∀ f, step s = .fault f → step t = .fault f) ∧
    (∀ s', step s = .next s' → ∃ t', step t = .next t' ∧ t'.a = s'.a ∧ t'.b = s'.b ∧ t'.c = s'.c ∧ t'.pc = s'.pc ∧
      t'.out = s'.out)

/-- The step of the model is R80's algorithm over numbers, transcribed apart from it in Machine/Reference.lean: same next
state, same fault, same record (spec's decisions D1, D2, D3, D9, D21). -/
def Obligations.StepRefinesTheStepAlgorithm : Prop :=
  ∀ s : State, Reference.abstrOutcome (step s) = some (Reference.STEP s.cfg.outCapacity (Reference.abstr s))

/-! ### Invariants -/

/-- The reset state meets the invariant. Its registers, program and parameters are the model's choice (log entries 2, 3). -/
def Obligations.ResetMeetsTheInvariant : Prop := State.reset.Inv

/-- Every step keeps the invariant: `0 ≤ pc ≤ max(L, 7)` (R26), a program NEW accepts, a log within its capacity. -/
def Obligations.EveryStepKeepsTheInvariant : Prop :=
  ∀ s t : State, s.Inv → step s = .next t → t.Inv

/-- Every command keeps the invariant, NEW establishes it, and so does any sequence of commands. -/
def Obligations.EveryCommandSequenceKeepsTheInvariant : Prop :=
  ∀ (cfg : Config) (p : Nat) (e : Engine) (cmds : List Command) (t : State),
    (∀ s, e = some s → s.Inv) → issueAll cfg p e cmds = some (some t) → t.Inv

/-- Where programs have at most `m` words, pc fits `PC_BITS` bits and never wraps (R9, R27; spec's decision D8). -/
def Obligations.PcFitsInItsBits : Prop :=
  ∀ (s : State) (m : Nat), s.Inv → s.cfg.maxProgLen = some m → s.pc < 2 ^ Config.minPcBits m

/-! ### Host commands -/

/-- Reset is NEW (70_reset_and_hazards.md section 1): it sets the registers, the snapshot, pc, the log and the program.
That it answers Ok on words 0–7 within the maximum length is R160 and R161 with the spec's decisions D1 and D10. Two
clauses are the model's: the parameters stand in the instance, `s.cfg = cfg` (its choice, log entry 1), and NEW answers
so on an engine that holds an instance already, which it replaces (its inference, log entry 7). -/
def Obligations.NewSetsEveryPieceOfState : Prop :=
  ∀ (cfg : Config) (p : Nat) (e : Engine) (a b c : Word) (prog : List Nat),
    (∀ w ∈ prog, w ≤ 7) → (∀ m, cfg.maxProgLen = some m → prog.length ≤ m) →
    ∃ s, issue cfg p e (.new a b c prog) = some (.ok, some s) ∧
      s.a = a ∧ s.b = b ∧ s.c = c ∧ s.a0 = a ∧ s.b0 = b ∧ s.c0 = c ∧ s.pc = 0 ∧ s.out = [] ∧
      s.prog.map BitVec.toNat = prog ∧ s.cfg = cfg

/-- NEW refuses a word outside 0–7, then a program that is too long, and a refusal changes no engine (spec's decisions D1,
D10; that an engine that exists stays is the model's reading, log entry 7). -/
def Obligations.NewRefusesBadPrograms : Prop :=
  ∀ (cfg : Config) (p : Nat) (e : Engine) (a b c : Word) (prog : List Nat),
    ((∃ w ∈ prog, 7 < w) → issue cfg p e (.new a b c prog) = some (.refused .wordOutOfRange, e)) ∧
    (∀ m, (∀ w ∈ prog, w ≤ 7) → cfg.maxProgLen = some m → m < prog.length →
      issue cfg p e (.new a b c prog) = some (.refused .programTooLong, e))

/-- R163, R164: RESTART succeeds in every state, and sets the registers from the snapshot, pc to 0 and the log empty; the
snapshot and the program are unchanged. -/
def Obligations.RestartRestoresTheSnapshot : Prop :=
  ∀ (cfg : Config) (p : Nat) (s : State),
    issue cfg p (some s) .restart = some (.ok, some { s with a := s.a0, b := s.b0, c := s.c0, pc := 0, out := [] })

/-- RESTART_A succeeds in every state, with A the supplied value and B and C from the snapshot, which is unchanged (spec's
decision D5: "A ← v, B ← B0, C ← C0, pc ← 0, out ← []"). -/
def Obligations.RestartATakesTheGivenA : Prop :=
  ∀ (cfg : Config) (p : Nat) (s : State) (v : Word),
    issue cfg p (some s) (.restartA v) = some (.ok, some { s with a := v, b := s.b0, c := s.c0, pc := 0, out := [] })

/-- After NEW and any commands but NEW, RESTART gives back the instance NEW made, and RESTART_A that instance with another
A: nothing an earlier run did survives (R165, R177; spec's decision D5). -/
def Obligations.RestartForgetsEveryEarlierRun : Prop :=
  ∀ (cfg : Config) (p : Nat) (a b c v : Word) (prog : List Nat) (s : State) (cmds : List Command) (e : Engine),
    newInstance cfg a b c prog = .ok s → (∀ cmd ∈ cmds, ∀ a' b' c' q, cmd ≠ .new a' b' c' q) →
    issueAll cfg p (some s) cmds = some e →
    issueAll cfg p e [.restart] = some (some s) ∧ issueAll cfg p e [.restartA v] = some (some { s with a := v })

/-- R168: STEP runs one step: Ok and the next state, or the fault and the state unchanged; it does not check finished
first, so on a finished machine it faults with ProgramBounds at L. -/
def Obligations.StepCommandReportsItsOutcome : Prop :=
  ∀ (cfg : Config) (p : Nat) (s : State),
    (∀ t, step s = .next t → issue cfg p (some s) .step = some (.ok, some t)) ∧
    (∀ f, step s = .fault f → issue cfg p (some s) .step = some (.fault f, some s)) ∧
    (s.pc = progLen s →
      issue cfg p (some s) .step = some (.fault (.programBounds (progLen s) (progLen s)), some s))

/-- R170, R171: what a bounded run answers, said through single steps. It answers Finished at the first state whose pc is
L, the fault of the first step that faults, with every earlier step committed, or NotTerminated after `k` committed
steps; there is no other answer (spec's decisions D6: "RUN checks `pc = L` before each step", D7). -/
def Obligations.RunStopsAtTheFirstFinishOrFault : Prop :=
  ∀ (k : Nat) (s t : State) (r : Response), runFor k s = (r, t) → ∃ j, j ≤ k ∧
    Host.Core.run Sys2Proof.core j s = .next t ∧
    (∀ i u, i < j → Host.Core.run Sys2Proof.core i s = .next u → u.pc ≠ progLen u) ∧
    ((r = .finished ∧ t.pc = progLen t) ∨
     (r = .notTerminated ∧ j = k ∧ t.pc ≠ progLen t) ∨
     (∃ f, r = .fault f ∧ j < k ∧ t.pc ≠ progLen t ∧ step t = .fault f))

/-- A later RUN continues from NotTerminated exactly as if no bound had been hit (spec's decision D23). -/
def Obligations.RunResumesAfterNotTerminated : Prop :=
  ∀ (j k : Nat) (s t : State), runFor j s = (.notTerminated, t) → runFor (j + k) s = runFor k t

/-- A command has at most one answer, the unbounded RUN too. -/
def Obligations.EveryCommandHasOneAnswer : Prop :=
  ∀ (cfg : Config) (e e₁ e₂ : Engine) (cmd : Command) (r₁ r₂ : Response),
    Answers cfg e cmd r₁ e₁ → Answers cfg e cmd r₂ e₂ → r₁ = r₂ ∧ e₁ = e₂

/-- A taken jnz to its own pc repeats forever: RUN(none) never returns (R141, R238). -/
def Obligations.JumpToItselfNeverReturns : Prop :=
  ∀ (s : State) (x : PWord), s.a ≠ 0#64 → memRead s s.pc = some 3#3 → memRead s (s.pc + 1) = some x →
    x.toNat = s.pc → NeverReturns s

/-- Where no word of the program is the opcode of adv, no run changes A (R22, R238). -/
def Obligations.RunsWithoutAdvKeepA : Prop :=
  ∀ (s : State) (k : Nat), (∀ j, memRead s j ≠ some 0#3) → (runFor k s).2.a = s.a

/-- R172, R29: FINISHED answers whether pc equals L, and changes nothing; a pc beyond L is not finished. -/
def Obligations.FinishedIsPcAtTheEnd : Prop :=
  ∀ (cfg : Config) (p : Nat) (s : State),
    issue cfg p (some s) .finished = some (.truth (decide (s.pc = s.prog.length)), some s) ∧
    (s.prog.length < s.pc → issue cfg p (some s) .finished = some (.truth false, some s))

/-- The read ports give the live registers, pc and the log in append order, and change nothing (spec's decision D12). -/
def Obligations.ReadPortsChangeNothing : Prop :=
  ∀ (cfg : Config) (p : Nat) (s : State),
    issue cfg p (some s) .readA = some (.word s.a, some s) ∧ issue cfg p (some s) .readB = some (.word s.b, some s) ∧
    issue cfg p (some s) .readC = some (.word s.c, some s) ∧ issue cfg p (some s) .readPc = some (.index s.pc, some s) ∧
    issue cfg p (some s) .readOut = some (.log s.out, some s)

/-- Before any NEW, every command but NEW is refused with NoInstance (spec's decision D11). -/
def Obligations.NothingRunsBeforeNew : Prop :=
  ∀ (cfg : Config) (p : Nat) (cmd : Command), (∀ a b c prog, cmd ≠ .new a b c prog) →
    issue cfg p none cmd = some (.refused .noInstance, none)

/-- A command to one engine answers as if it were alone and leaves every other engine as it was: R214's "No instance can
observe or affect another", said of the model's own form of several engines. That form, a list of engines addressed by
position whose length no command changes (NEW included), is the model's choice (log entry 10); the spec gives instances
no identifiers. -/
def Obligations.EnginesDoNotSeeEachOther : Prop :=
  ∀ (cfg : Config) (p j : Nat) (engines engines' : List Engine) (cmd : Command) (r : Response),
    issueAt cfg p engines j cmd = some (r, engines') →
    (∃ e e', engines[j]? = some e ∧ engines'[j]? = some e' ∧ issue cfg p e cmd = some (r, e')) ∧
    engines'.length = engines.length ∧ ∀ i, i ≠ j → engines'[i]? = engines[i]?
end

