-- ==== Sys2Proof/Laws/Decode.lean ====
section
/-! SUPPORT. The operand words and the decoder: each decoding function once. -/

namespace Sys2Proof

theorem decodeCombo_word (x : Combo) : decodeCombo x.word = x := by
  cases x with
  | lit n => revert n; decide
  | reg r => cases r <;> rfl
  | reserved => rfl

theorem word_decodeCombo (k : PWord) : (decodeCombo k).word = k := by revert k; decide

theorem decodeCombo_wellFormed (k : PWord) : (decodeCombo k).wellFormed = decide (k ≠ 7#3) := by revert k; decide

/-- The opcode word alone selects the operation (R67): what `decodePair` gives for each of the eight opcodes. -/
theorem decodePair_cases (op x : PWord) :
    (op = 0#3 ∧ decodePair op x = .adv (decodeCombo x)) ∨ (op = 1#3 ∧ decodePair op x = .bxl x) ∨
    (op = 2#3 ∧ decodePair op x = .bst (decodeCombo x)) ∨ (op = 3#3 ∧ decodePair op x = .jnz x) ∨
    (op = 4#3 ∧ decodePair op x = .bxc x) ∨ (op = 5#3 ∧ decodePair op x = .out (decodeCombo x)) ∨
    (op = 6#3 ∧ decodePair op x = .bdv (decodeCombo x)) ∨ (op = 7#3 ∧ decodePair op x = .cdv (decodeCombo x)) := by
  revert op x; decide

theorem decode_pair (op x : PWord) (rest : List PWord) : decode (op :: x :: rest) = .ok (decodePair op x, rest) := rfl

end Sys2Proof
end

