-- ==== Sys2Proof/Laws/State.lean ====
section
/-! SUPPORT. One lemma per field per state update: what each named update leaves and what it writes. -/

namespace Sys2Proof.Machine

/-! ### The pc updates -/

@[simp] theorem advance_a (s : State) : (advance s).a = s.a := rfl
@[simp] theorem advance_b (s : State) : (advance s).b = s.b := rfl
@[simp] theorem advance_c (s : State) : (advance s).c = s.c := rfl
@[simp] theorem advance_pc (s : State) : (advance s).pc = s.pc + 2 := rfl
@[simp] theorem advance_out (s : State) : (advance s).out = s.out := rfl
@[simp] theorem advance_a0 (s : State) : (advance s).a0 = s.a0 := rfl
@[simp] theorem advance_b0 (s : State) : (advance s).b0 = s.b0 := rfl
@[simp] theorem advance_c0 (s : State) : (advance s).c0 = s.c0 := rfl
@[simp] theorem advance_prog (s : State) : (advance s).prog = s.prog := rfl
@[simp] theorem advance_cfg (s : State) : (advance s).cfg = s.cfg := rfl
@[simp] theorem jumpTo_a (x : PWord) (s : State) : (jumpTo x s).a = s.a := rfl
@[simp] theorem jumpTo_b (x : PWord) (s : State) : (jumpTo x s).b = s.b := rfl
@[simp] theorem jumpTo_c (x : PWord) (s : State) : (jumpTo x s).c = s.c := rfl
@[simp] theorem jumpTo_pc (x : PWord) (s : State) : (jumpTo x s).pc = x.toNat := rfl
@[simp] theorem jumpTo_out (x : PWord) (s : State) : (jumpTo x s).out = s.out := rfl
@[simp] theorem jumpTo_a0 (x : PWord) (s : State) : (jumpTo x s).a0 = s.a0 := rfl
@[simp] theorem jumpTo_b0 (x : PWord) (s : State) : (jumpTo x s).b0 = s.b0 := rfl
@[simp] theorem jumpTo_c0 (x : PWord) (s : State) : (jumpTo x s).c0 = s.c0 := rfl
@[simp] theorem jumpTo_prog (x : PWord) (s : State) : (jumpTo x s).prog = s.prog := rfl
@[simp] theorem jumpTo_cfg (x : PWord) (s : State) : (jumpTo x s).cfg = s.cfg := rfl

/-! ### The output log -/

@[simp] theorem outAppend_a (v : PWord) (s : State) : (outAppend v s).a = s.a := rfl
@[simp] theorem outAppend_b (v : PWord) (s : State) : (outAppend v s).b = s.b := rfl
@[simp] theorem outAppend_c (v : PWord) (s : State) : (outAppend v s).c = s.c := rfl
@[simp] theorem outAppend_pc (v : PWord) (s : State) : (outAppend v s).pc = s.pc := rfl
@[simp] theorem outAppend_out (v : PWord) (s : State) : (outAppend v s).out = s.out ++ [v] := rfl
@[simp] theorem outAppend_a0 (v : PWord) (s : State) : (outAppend v s).a0 = s.a0 := rfl
@[simp] theorem outAppend_b0 (v : PWord) (s : State) : (outAppend v s).b0 = s.b0 := rfl
@[simp] theorem outAppend_c0 (v : PWord) (s : State) : (outAppend v s).c0 = s.c0 := rfl
@[simp] theorem outAppend_prog (v : PWord) (s : State) : (outAppend v s).prog = s.prog := rfl
@[simp] theorem outAppend_cfg (v : PWord) (s : State) : (outAppend v s).cfg = s.cfg := rfl

/-! ### Register writes -/

@[simp] theorem writeReg_a_a (v : Word) (s : State) : (writeReg .a v s).a = v := rfl
@[simp] theorem writeReg_a_b (v : Word) (s : State) : (writeReg .a v s).b = s.b := rfl
@[simp] theorem writeReg_a_c (v : Word) (s : State) : (writeReg .a v s).c = s.c := rfl
@[simp] theorem writeReg_a_pc (v : Word) (s : State) : (writeReg .a v s).pc = s.pc := rfl
@[simp] theorem writeReg_a_out (v : Word) (s : State) : (writeReg .a v s).out = s.out := rfl
@[simp] theorem writeReg_a_a0 (v : Word) (s : State) : (writeReg .a v s).a0 = s.a0 := rfl
@[simp] theorem writeReg_a_b0 (v : Word) (s : State) : (writeReg .a v s).b0 = s.b0 := rfl
@[simp] theorem writeReg_a_c0 (v : Word) (s : State) : (writeReg .a v s).c0 = s.c0 := rfl
@[simp] theorem writeReg_a_prog (v : Word) (s : State) : (writeReg .a v s).prog = s.prog := rfl
@[simp] theorem writeReg_a_cfg (v : Word) (s : State) : (writeReg .a v s).cfg = s.cfg := rfl
@[simp] theorem writeReg_b_a (v : Word) (s : State) : (writeReg .b v s).a = s.a := rfl
@[simp] theorem writeReg_b_b (v : Word) (s : State) : (writeReg .b v s).b = v := rfl
@[simp] theorem writeReg_b_c (v : Word) (s : State) : (writeReg .b v s).c = s.c := rfl
@[simp] theorem writeReg_b_pc (v : Word) (s : State) : (writeReg .b v s).pc = s.pc := rfl
@[simp] theorem writeReg_b_out (v : Word) (s : State) : (writeReg .b v s).out = s.out := rfl
@[simp] theorem writeReg_b_a0 (v : Word) (s : State) : (writeReg .b v s).a0 = s.a0 := rfl
@[simp] theorem writeReg_b_b0 (v : Word) (s : State) : (writeReg .b v s).b0 = s.b0 := rfl
@[simp] theorem writeReg_b_c0 (v : Word) (s : State) : (writeReg .b v s).c0 = s.c0 := rfl
@[simp] theorem writeReg_b_prog (v : Word) (s : State) : (writeReg .b v s).prog = s.prog := rfl
@[simp] theorem writeReg_b_cfg (v : Word) (s : State) : (writeReg .b v s).cfg = s.cfg := rfl
@[simp] theorem writeReg_c_a (v : Word) (s : State) : (writeReg .c v s).a = s.a := rfl
@[simp] theorem writeReg_c_b (v : Word) (s : State) : (writeReg .c v s).b = s.b := rfl
@[simp] theorem writeReg_c_c (v : Word) (s : State) : (writeReg .c v s).c = v := rfl
@[simp] theorem writeReg_c_pc (v : Word) (s : State) : (writeReg .c v s).pc = s.pc := rfl
@[simp] theorem writeReg_c_out (v : Word) (s : State) : (writeReg .c v s).out = s.out := rfl
@[simp] theorem writeReg_c_a0 (v : Word) (s : State) : (writeReg .c v s).a0 = s.a0 := rfl
@[simp] theorem writeReg_c_b0 (v : Word) (s : State) : (writeReg .c v s).b0 = s.b0 := rfl
@[simp] theorem writeReg_c_c0 (v : Word) (s : State) : (writeReg .c v s).c0 = s.c0 := rfl
@[simp] theorem writeReg_c_prog (v : Word) (s : State) : (writeReg .c v s).prog = s.prog := rfl
@[simp] theorem writeReg_c_cfg (v : Word) (s : State) : (writeReg .c v s).cfg = s.cfg := rfl
@[simp] theorem writeReg_pc (r : Reg) (v : Word) (s : State) : (writeReg r v s).pc = s.pc := by cases r <;> rfl
@[simp] theorem writeReg_out (r : Reg) (v : Word) (s : State) : (writeReg r v s).out = s.out := by cases r <;> rfl
@[simp] theorem writeReg_a0 (r : Reg) (v : Word) (s : State) : (writeReg r v s).a0 = s.a0 := by cases r <;> rfl
@[simp] theorem writeReg_b0 (r : Reg) (v : Word) (s : State) : (writeReg r v s).b0 = s.b0 := by cases r <;> rfl
@[simp] theorem writeReg_c0 (r : Reg) (v : Word) (s : State) : (writeReg r v s).c0 = s.c0 := by cases r <;> rfl
@[simp] theorem writeReg_prog (r : Reg) (v : Word) (s : State) : (writeReg r v s).prog = s.prog := by cases r <;> rfl
@[simp] theorem writeReg_cfg (r : Reg) (v : Word) (s : State) : (writeReg r v s).cfg = s.cfg := by cases r <;> rfl
@[simp] theorem readReg_a (s : State) : readReg .a s = s.a := rfl
@[simp] theorem readReg_b (s : State) : readReg .b s = s.b := rfl
@[simp] theorem readReg_c (s : State) : readReg .c s = s.c := rfl

theorem readReg_writeReg_same (r : Reg) (v : Word) (s : State) : readReg r (writeReg r v s) = v := by cases r <;> rfl

theorem readReg_writeReg_other (r q : Reg) (h : q ≠ r) (v : Word) (s : State) :
    readReg q (writeReg r v s) = readReg q s := by
  cases r <;> cases q <;> first | rfl | exact absurd rfl h

/-! ### RESTART, RESTART_A and the fresh state -/

@[simp] theorem restart_a (s : State) : (restart s).a = s.a0 := rfl
@[simp] theorem restart_b (s : State) : (restart s).b = s.b0 := rfl
@[simp] theorem restart_c (s : State) : (restart s).c = s.c0 := rfl
@[simp] theorem restart_pc (s : State) : (restart s).pc = 0 := rfl
@[simp] theorem restart_out (s : State) : (restart s).out = [] := rfl
@[simp] theorem restart_a0 (s : State) : (restart s).a0 = s.a0 := rfl
@[simp] theorem restart_b0 (s : State) : (restart s).b0 = s.b0 := rfl
@[simp] theorem restart_c0 (s : State) : (restart s).c0 = s.c0 := rfl
@[simp] theorem restart_prog (s : State) : (restart s).prog = s.prog := rfl
@[simp] theorem restart_cfg (s : State) : (restart s).cfg = s.cfg := rfl
@[simp] theorem restartA_a (v : Word) (s : State) : (restartA v s).a = v := rfl
@[simp] theorem restartA_b (v : Word) (s : State) : (restartA v s).b = s.b0 := rfl
@[simp] theorem restartA_c (v : Word) (s : State) : (restartA v s).c = s.c0 := rfl
@[simp] theorem restartA_pc (v : Word) (s : State) : (restartA v s).pc = 0 := rfl
@[simp] theorem restartA_out (v : Word) (s : State) : (restartA v s).out = [] := rfl
@[simp] theorem restartA_a0 (v : Word) (s : State) : (restartA v s).a0 = s.a0 := rfl
@[simp] theorem restartA_b0 (v : Word) (s : State) : (restartA v s).b0 = s.b0 := rfl
@[simp] theorem restartA_c0 (v : Word) (s : State) : (restartA v s).c0 = s.c0 := rfl
@[simp] theorem restartA_prog (v : Word) (s : State) : (restartA v s).prog = s.prog := rfl
@[simp] theorem restartA_cfg (v : Word) (s : State) : (restartA v s).cfg = s.cfg := rfl
@[simp] theorem fresh_a (cfg : Config) (a b c : Word) (p : Memory) : (State.fresh cfg a b c p).a = a := rfl
@[simp] theorem fresh_b (cfg : Config) (a b c : Word) (p : Memory) : (State.fresh cfg a b c p).b = b := rfl
@[simp] theorem fresh_c (cfg : Config) (a b c : Word) (p : Memory) : (State.fresh cfg a b c p).c = c := rfl
@[simp] theorem fresh_pc (cfg : Config) (a b c : Word) (p : Memory) : (State.fresh cfg a b c p).pc = 0 := rfl
@[simp] theorem fresh_out (cfg : Config) (a b c : Word) (p : Memory) : (State.fresh cfg a b c p).out = [] := rfl
@[simp] theorem fresh_a0 (cfg : Config) (a b c : Word) (p : Memory) : (State.fresh cfg a b c p).a0 = a := rfl
@[simp] theorem fresh_b0 (cfg : Config) (a b c : Word) (p : Memory) : (State.fresh cfg a b c p).b0 = b := rfl
@[simp] theorem fresh_c0 (cfg : Config) (a b c : Word) (p : Memory) : (State.fresh cfg a b c p).c0 = c := rfl
@[simp] theorem fresh_prog (cfg : Config) (a b c : Word) (p : Memory) : (State.fresh cfg a b c p).prog = p := rfl
@[simp] theorem fresh_cfg (cfg : Config) (a b c : Word) (p : Memory) : (State.fresh cfg a b c p).cfg = cfg := rfl

end Sys2Proof.Machine
end

