-- ==== Sys2Proof/Laws/Ops.lean ====
section
/-! SUPPORT. One spec lemma per shared operation: everything it can do, for proofs to cite instead of unfolding it. -/

namespace Sys2Proof.Machine

/-! ### Values -/

theorem shr64_of_lt {v n : Word} (h : n.toNat < 64) : shr64 v n = v >>> n.toNat := by simp [shr64, h]

theorem shr64_of_ge {v n : Word} (h : 64 ≤ n.toNat) : shr64 v n = 0#64 := by simp [shr64, Nat.not_lt.2 h]

/-- R16 as Lean's own logical shift, which is 0 from the width on. -/
theorem shr64_eq (v n : Word) : shr64 v n = v >>> n.toNat := by
  by_cases h : n.toNat < 64
  · exact shr64_of_lt h
  · rw [shr64_of_ge (Nat.not_lt.1 h), BitVec.ushiftRight_eq_zero (Nat.not_lt.1 h)]

theorem low3_toNat (v : Word) : (low3 v).toNat = v.toNat % 8 := by simp [low3, BitVec.toNat_setWidth]

theorem zext64_toNat {n : Nat} (v : BitVec n) (h : n ≤ 64) : (zext64 v).toNat = v.toNat := by
  have := Nat.lt_of_lt_of_le v.isLt (Nat.pow_le_pow_right (by decide) h)
  simp [zext64, BitVec.toNat_setWidth, Nat.mod_eq_of_lt this]

/-! ### Program memory -/

theorem memRead_isSome_iff (s : State) (i : Nat) : (∃ w, memRead s i = some w) ↔ i < progLen s := by
  simp only [memRead, progLen, ← Option.isSome_iff_exists, isSome_getElem?]

theorem memRead_eq_none_iff (s : State) (i : Nat) : memRead s i = none ↔ progLen s ≤ i := by
  simp [memRead, progLen]

theorem memRead_congr {s t : State} (h : t.prog = s.prog) (i : Nat) : memRead t i = memRead s i := by
  simp [memRead, h]

theorem progLen_congr {s t : State} (h : t.prog = s.prog) : progLen t = progLen s := by simp [progLen, h]

theorem placePair_length (i : Nat) (op x : PWord) (p : Memory) : (placePair i op x p).length = max p.length (i + 2) := by
  simp [placePair]; omega

theorem placePair_reads (i : Nat) (op x : PWord) (p : Memory) :
    (placePair i op x p)[i]? = some op ∧ (placePair i op x p)[i + 1]? = some x := by
  constructor <;> simp [placePair, List.getElem?_set] <;> omega

theorem placePair_other (i j : Nat) (op x : PWord) (p : Memory) (h : j ≠ i) (h' : j ≠ i + 1) (hj : j < p.length) :
    (placePair i op x p)[j]? = p[j]? := by
  simp [placePair, h.symm, h'.symm, List.getElem?_append_left hj]

/-! ### Conditions -/

theorem outFull_iff (s : State) : outFull s = true ↔ ∃ n, s.cfg.outCapacity = some n ∧ n ≤ s.out.length := by
  unfold outFull; split <;> simp_all

theorem outFull_eq_false_iff (s : State) : outFull s = false ↔ ∀ n, s.cfg.outCapacity = some n → s.out.length < n := by
  unfold outFull; split <;> simp_all

theorem finished_iff (s : State) : finished s = true ↔ s.pc = progLen s := by simp [finished]

theorem jumpTaken_iff (s : State) : jumpTaken s = true ↔ s.a ≠ 0#64 := by simp [jumpTaken]

theorem wf_iff (cfg : Config) (p : Memory) : Memory.wf cfg p = true ↔ ∀ m, cfg.maxProgLen = some m → p.length ≤ m := by
  unfold Memory.wf; split <;> simp_all

/-! ### Operands -/

theorem comboValue_eq_none_iff (x : Combo) (s : State) : comboValue x s = none ↔ x = .reserved := by
  cases x <;> simp [comboValue]

theorem exists_comboValue_iff (x : Combo) (s : State) : (∃ v, comboValue x s = some v) ↔ x.wellFormed = true := by
  cases x <;> simp [comboValue, Combo.wellFormed]

theorem withCombo_value {x : Combo} {s : State} {v : Word} (h : comboValue x s = some v)
    (go : Word → Host.Outcome State Fault Refusal) : withCombo x s go = go v := by simp [withCombo, h]

theorem withCombo_reserved (s : State) (go : Word → Host.Outcome State Fault Refusal) :
    withCombo .reserved s go = .fault (.invalidOperand s.pc 7#3) := rfl

/-- All that resolving a combo operand can do: go on with its value, or raise InvalidOperand on the reserved one. -/
theorem withCombo_cases (x : Combo) (s : State) (go : Word → Host.Outcome State Fault Refusal) :
    (∃ v, comboValue x s = some v ∧ withCombo x s go = go v) ∨
      (x = .reserved ∧ withCombo x s go = .fault (.invalidOperand s.pc 7#3)) := by
  cases x with
  | lit n => exact .inl ⟨_, rfl, rfl⟩
  | reg r => exact .inl ⟨_, rfl, rfl⟩
  | reserved => exact .inr ⟨rfl, rfl⟩

theorem withCombo_next {x : Combo} {s t : State} {go : Word → Host.Outcome State Fault Refusal}
    (h : withCombo x s go = .next t) : ∃ v, comboValue x s = some v ∧ go v = .next t := by
  obtain ⟨v, hv, e⟩ | ⟨-, e⟩ := withCombo_cases x s go
  · exact ⟨v, hv, e ▸ h⟩
  · simp [e] at h

/-! ### The shared effects -/

/-- All that emitting can do: OutputOverflow on a full log, else the append and the advance. -/
theorem emit_cases (v : PWord) (s : State) :
    (outFull s = true ∧ emit v s = .fault (.outputOverflow s.pc)) ∨
      (outFull s = false ∧ emit v s = .next (advance (outAppend v s))) := by
  cases h : outFull s <;> simp [emit, h, raiseFault]

theorem shiftAInto_next {dst : Reg} {x : Combo} {s t : State} (h : shiftAInto dst x s = .next t) :
    ∃ v, comboValue x s = some v ∧ t = advance (writeReg dst (shr64 s.a v) s) := by
  obtain ⟨v, hv, e⟩ := withCombo_next h
  exact ⟨v, hv, by simpa using e.symm⟩

theorem execBst_next {x : Combo} {s t : State} (h : execBst x s = .next t) :
    ∃ v, comboValue x s = some v ∧ t = advance (writeReg .b (zext64 (low3 v)) s) := by
  obtain ⟨v, hv, e⟩ := withCombo_next h
  exact ⟨v, hv, by simpa using e.symm⟩

theorem execOut_next {x : Combo} {s t : State} (h : execOut x s = .next t) :
    ∃ v, comboValue x s = some v ∧ outFull s = false ∧ t = advance (outAppend (low3 v) s) := by
  obtain ⟨v, hv, e⟩ := withCombo_next h
  obtain ⟨-, e'⟩ | ⟨hf, e'⟩ := emit_cases (low3 v) s
  · simp [e'] at e
  · exact ⟨v, hv, hf, by simpa [e'] using e.symm⟩

/-- The writes an instruction can make to A, B, C, pc and the log, all computed from the old state (R83, R89). -/
inductive Effect (s : State) : Instr → State → Prop where
  | adv {x v} : comboValue x s = some v → Effect s (.adv x) (advance (writeReg .a (shr64 s.a v) s))
  | bxl {x} : Effect s (.bxl x) (advance (writeReg .b (s.b ^^^ literalValue x) s))
  | bst {x v} : comboValue x s = some v → Effect s (.bst x) (advance (writeReg .b (zext64 (low3 v)) s))
  | jnzTaken {x} : s.a ≠ 0#64 → Effect s (.jnz x) (jumpTo x s)
  | jnzNotTaken {x} : s.a = 0#64 → Effect s (.jnz x) (advance s)
  | bxc {x} : Effect s (.bxc x) (advance (writeReg .b (s.b ^^^ s.c) s))
  | out {x v} : comboValue x s = some v → outFull s = false → Effect s (.out x) (advance (outAppend (low3 v) s))
  | bdv {x v} : comboValue x s = some v → Effect s (.bdv x) (advance (writeReg .b (shr64 s.a v) s))
  | cdv {x v} : comboValue x s = some v → Effect s (.cdv x) (advance (writeReg .c (shr64 s.a v) s))

/-- The inversion lemma of `exec`: when it answers a next state, that state is the instruction's effect. -/
theorem exec_next {i : Instr} {s t : State} (h : exec i s = .next t) : Effect s i t := by
  cases i with
  | adv x => obtain ⟨v, hv, rfl⟩ := shiftAInto_next h; exact .adv hv
  | bxl x => obtain rfl := by simpa [exec, execBxl] using h.symm
             exact .bxl
  | bst x => obtain ⟨v, hv, rfl⟩ := execBst_next h; exact .bst hv
  | jnz x =>
    by_cases ha : s.a = 0#64
    · obtain rfl := by simpa [exec, execJnz, jumpTaken, ha] using h.symm
      exact .jnzNotTaken ha
    · obtain rfl := by simpa [exec, execJnz, jumpTaken, ha] using h.symm
      exact .jnzTaken ha
  | bxc x => obtain rfl := by simpa [exec, execBxc] using h.symm
             exact .bxc
  | out x => obtain ⟨v, hv, hf, rfl⟩ := execOut_next h; exact .out hv hf
  | bdv x => obtain ⟨v, hv, rfl⟩ := shiftAInto_next h; exact .bdv hv
  | cdv x => obtain ⟨v, hv, rfl⟩ := shiftAInto_next h; exact .cdv hv

/-- All that `exec` can do: commit, raise InvalidOperand on the reserved operand, or raise OutputOverflow. -/
theorem exec_cases (i : Instr) (s : State) :
    (canCommit i s = true ∧ ∃ t, exec i s = .next t) ∨
    (i.wellFormed = false ∧ exec i s = .fault (.invalidOperand s.pc 7#3)) ∨
    (i.wellFormed = true ∧ (∃ x, i = .out x) ∧ outFull s = true ∧ exec i s = .fault (.outputOverflow s.pc)) := by
  have write : ∀ x (go : Word → State), (x.wellFormed = true ∧ ∃ t, withCombo x s (fun v => .next (go v)) = .next t) ∨
      (x.wellFormed = false ∧ withCombo x s (fun v => .next (go v)) = .fault (.invalidOperand s.pc 7#3)) := by
    intro x go
    obtain ⟨v, hv, e⟩ | ⟨rfl, e⟩ := withCombo_cases x s fun v => .next (go v)
    · exact .inl ⟨(exists_comboValue_iff x s).1 ⟨v, hv⟩, _, e⟩
    · exact .inr ⟨rfl, e⟩
  have lift : ∀ {i : Instr} {x : Combo} {o : Host.Outcome State Fault Refusal}, i.wellFormed = x.wellFormed →
      canCommit i s = x.wellFormed → exec i s = o →
      (x.wellFormed = true ∧ ∃ t, o = .next t) ∨ (x.wellFormed = false ∧ o = .fault (.invalidOperand s.pc 7#3)) →
      (canCommit i s = true ∧ ∃ t, exec i s = .next t) ∨
      (i.wellFormed = false ∧ exec i s = .fault (.invalidOperand s.pc 7#3)) ∨
      (i.wellFormed = true ∧ (∃ x, i = .out x) ∧ outFull s = true ∧ exec i s = .fault (.outputOverflow s.pc)) := by
    rintro i x o hw hc rfl (⟨h, ht⟩ | ⟨h, hf⟩)
    · exact .inl ⟨hc.trans h, ht⟩
    · exact .inr (.inl ⟨hw.trans h, hf⟩)
  cases i with
  | adv x => exact lift rfl (by simp [canCommit, Instr.wellFormed]) rfl (write x _)
  | bdv x => exact lift rfl (by simp [canCommit, Instr.wellFormed]) rfl (write x _)
  | cdv x => exact lift rfl (by simp [canCommit, Instr.wellFormed]) rfl (write x _)
  | bst x => exact lift rfl (by simp [canCommit, Instr.wellFormed]) rfl (write x _)
  | bxl x => exact .inl ⟨rfl, _, rfl⟩
  | jnz x => exact .inl ⟨rfl, _, rfl⟩
  | bxc x => exact .inl ⟨rfl, _, rfl⟩
  | out x =>
    obtain ⟨v, hv, e⟩ | ⟨rfl, e⟩ := withCombo_cases x s fun v => emit (low3 v) s
    · have hw := (exists_comboValue_iff x s).1 ⟨v, hv⟩
      obtain ⟨hf, e'⟩ | ⟨hf, e'⟩ := emit_cases (low3 v) s
      · exact .inr (.inr ⟨hw, ⟨x, rfl⟩, hf, e.trans e'⟩)
      · exact .inl ⟨by simp [canCommit, Instr.wellFormed, hw, hf], _, e.trans e'⟩
    · exact .inr (.inl ⟨rfl, e⟩)

/-! ### Fetch and step -/

/-- All that the fetch can do: fail on the opcode index, fail on the operand index, or give the pair. -/
theorem fetchPair_cases (s : State) :
    (progLen s ≤ s.pc ∧ fetchPair s = .error (.programBounds s.pc s.pc)) ∨
    (s.pc < progLen s ∧ progLen s ≤ s.pc + 1 ∧ fetchPair s = .error (.programBounds s.pc (s.pc + 1))) ∨
    ∃ op x, memRead s s.pc = some op ∧ memRead s (s.pc + 1) = some x ∧ fetchPair s = .ok (op, x) := by
  unfold fetchPair
  cases hop : memRead s s.pc with
  | none => exact .inl ⟨(memRead_eq_none_iff s _).1 hop, rfl⟩
  | some op =>
    have hlt := (memRead_isSome_iff s _).1 ⟨op, hop⟩
    cases hx : memRead s (s.pc + 1) with
    | none => exact .inr (.inl ⟨hlt, (memRead_eq_none_iff s _).1 hx, rfl⟩)
    | some x => exact .inr (.inr ⟨op, x, rfl, rfl, rfl⟩)

theorem step_of_fetch {s : State} {op x : PWord} (h : fetchPair s = .ok (op, x)) : step s = exec (decodePair op x) s := by
  simp [step, h]

theorem step_of_fetch_error {s : State} {f : Fault} (h : fetchPair s = .error f) : step s = .fault f := by
  simp [step, h, raiseFault]

/-- The inversion lemma of `step`: a next state is the effect of the pair at pc. -/
theorem step_next {s t : State} (h : step s = .next t) :
    ∃ op x, memRead s s.pc = some op ∧ memRead s (s.pc + 1) = some x ∧ Effect s (decodePair op x) t := by
  obtain ⟨-, e⟩ | ⟨-, -, e⟩ | ⟨op, x, hop, hx, e⟩ := fetchPair_cases s
  · simp [step_of_fetch_error e] at h
  · simp [step_of_fetch_error e] at h
  · exact ⟨op, x, hop, hx, exec_next (step_of_fetch e ▸ h)⟩

/-- No effect touches program memory, so a kept program memory stays one that NEW accepts. -/
theorem Effect.prog {s t : State} {i : Instr} (h : Effect s i t) : t.prog = s.prog := by cases h <;> simp

theorem Effect.cfg {s t : State} {i : Instr} (h : Effect s i t) : t.cfg = s.cfg := by cases h <;> simp

theorem step_keeps_memory_wf {s t : State} (h : step s = .next t) (hw : Memory.wf s.cfg s.prog = true) :
    Memory.wf t.cfg t.prog = true := by
  obtain ⟨op, x, -, -, e⟩ := step_next h
  rwa [e.prog, e.cfg]

theorem reset_memory_wf : Memory.wf State.reset.cfg State.reset.prog = true := rfl

theorem placePair_memory_wf {cfg : Config} {p : Memory} (h : Memory.wf cfg p = true) (i : Nat) (op x : PWord)
    (room : ∀ m, cfg.maxProgLen = some m → i + 2 ≤ m) : Memory.wf cfg (placePair i op x p) = true := by
  rw [wf_iff] at *
  intro m hm
  rw [placePair_length]
  exact max_le (h m hm) (room m hm)

/-- All that NEW can do: refuse a word above 7, refuse a program that is too long, or make the fresh instance. -/
theorem newInstance_cases (cfg : Config) (a b c : Word) (prog : List Nat) :
    ((∃ w ∈ prog, 7 < w) ∧ newInstance cfg a b c prog = .error .wordOutOfRange) ∨
    ((∀ w ∈ prog, w ≤ 7) ∧ (∃ m, cfg.maxProgLen = some m ∧ m < prog.length) ∧
      newInstance cfg a b c prog = .error .programTooLong) ∨
    ((∀ w ∈ prog, w ≤ 7) ∧ (∀ m, cfg.maxProgLen = some m → prog.length ≤ m) ∧
      newInstance cfg a b c prog = .ok (State.fresh cfg a b c (prog.map (BitVec.ofNat 3)))) := by
  by_cases hw : ∃ w ∈ prog, 7 < w
  · exact .inl ⟨hw, by simp [newInstance, hw]⟩
  · have hle : ∀ w ∈ prog, w ≤ 7 := fun w hm => Nat.not_lt.1 fun hlt => hw ⟨w, hm, hlt⟩
    right
    cases hm : cfg.maxProgLen with
    | none => exact .inr ⟨hle, by simp, by simp [newInstance, tooLong, hm, hw]⟩
    | some m =>
      by_cases hl : m < prog.length
      · exact .inl ⟨hle, ⟨m, rfl, hl⟩, by simp [newInstance, tooLong, hm, hw, hl]⟩
      · exact .inr ⟨hle, by simpa using hl, by simp [newInstance, tooLong, hm, hw, hl]⟩

theorem newInstance_memory_wf {cfg : Config} {a b c : Word} {prog : List Nat} {s : State}
    (h : newInstance cfg a b c prog = .ok s) : Memory.wf s.cfg s.prog = true := by
  obtain ⟨-, e⟩ | ⟨-, -, e⟩ | ⟨-, hl, e⟩ := newInstance_cases cfg a b c prog
  · simp [e] at h
  · simp [e] at h
  · obtain rfl : State.fresh cfg a b c _ = s := by simpa [e] using h
    simpa [wf_iff] using hl

/-! ### Runs -/

theorem runFor_of_finished {s : State} (h : finished s = true) (k : Nat) : runFor k s = (.finished, s) := by
  unfold runFor; simp [h]

theorem runFor_zero {s : State} (h : finished s = false) : runFor 0 s = (.notTerminated, s) := by
  unfold runFor; simp [h]

theorem runFor_succ_next {s t : State} {k : Nat} (h : finished s = false) (hs : step s = .next t) :
    runFor (k + 1) s = runFor k t := by
  rw [runFor]; simp [h, hs]

theorem runFor_succ_fault {s : State} {f : Fault} {k : Nat} (h : finished s = false) (hs : step s = .fault f) :
    runFor (k + 1) s = (.fault f, s) := by
  rw [runFor]; simp [h, hs]

theorem runFor_succ_refused {s : State} {r : Refusal} {k : Nat} (h : finished s = false) (hs : step s = .refused r) :
    runFor (k + 1) s = (.refused r, s) := by
  rw [runFor]; simp [h, hs]

end Sys2Proof.Machine
end

