-- ==== Sys2Proof/Laws/PerInstr.lean ====
section
/-! SUPPORT. Statements about every instruction as syntax, one lemma per constructor. -/

/-- The instruction's pair value is a 6-bit number whose two fields are its own words (R62), and it falls under the
instruction's own row of the opcode table (R67). -/
def Sys2Proof.Laws.PairValueInOwnRow.Statement (i : Sys2Proof.Instr) : Prop :=
  i.pairValue < 64 ∧ Sys2Proof.pairOpcode i.pairValue = i.opcode ∧ Sys2Proof.pairOperand i.pairValue = i.operandWord ∧
    ∃ r ∈ Sys2Proof.encodingTable, r.mnemonic = i.mnemonic ∧ r.covers (BitVec.ofNat 6 i.pairValue) = true

namespace Sys2Proof.Laws.PairValueInOwnRow

/-- The numbers of a pair value, whatever the row: both fields read back, and the table's mask keeps the opcode. -/
theorem fields_of_pair (op x : PWord) :
    op.toNat * 8 + x.toNat < 64 ∧ pairOpcode (op.toNat * 8 + x.toNat) = op ∧ pairOperand (op.toNat * 8 + x.toNat) = x ∧
      BitVec.ofNat 6 (op.toNat * 8 + x.toNat) &&& 0b111000#6 = BitVec.ofNat 6 (op.toNat * 8) := by
  revert op x; decide

/-- A row at position `n` of the table with the shared mask and the opcode's pattern covers the pair value. -/
theorem of_row (i : Instr) (n : Nat)
    (h : encodingTable[n]? = some ⟨i.mnemonic, 0b111000#6, BitVec.ofNat 6 (i.opcode.toNat * 8)⟩) : Statement i := by
  obtain ⟨lt, hop, hx, hmask⟩ := fields_of_pair i.opcode i.operandWord
  exact ⟨lt, hop, hx, _, List.mem_of_getElem? h, rfl, by simp [EncodingRow.covers, Instr.pairValue, hmask]⟩

theorem adv (x : Combo) : Statement (.adv x) := of_row _ 0 rfl
theorem bxl (x : PWord) : Statement (.bxl x) := of_row _ 1 rfl
theorem bst (x : Combo) : Statement (.bst x) := of_row _ 2 rfl
theorem jnz (x : PWord) : Statement (.jnz x) := of_row _ 3 rfl
theorem bxc (x : PWord) : Statement (.bxc x) := of_row _ 4 rfl
theorem out (x : Combo) : Statement (.out x) := of_row _ 5 rfl
theorem bdv (x : Combo) : Statement (.bdv x) := of_row _ 6 rfl
theorem cdv (x : Combo) : Statement (.cdv x) := of_row _ 7 rfl

end Sys2Proof.Laws.PairValueInOwnRow
end

