-- ==== Sys2Proof/Laws/Runs.lean ====
section
/-! SUPPORT. Runs and commands: what each can do, said once, and the induction over a run, packaged. -/

namespace Sys2Proof.Machine

theorem sameInstance_refl (s : State) : sameInstance s s := ⟨rfl, rfl, rfl, rfl, rfl⟩

theorem sameInstance_trans {s t u : State} (h : sameInstance s t) (h' : sameInstance t u) : sameInstance s u := by
  simp_all [sameInstance]

theorem Effect.sameInstance {s t : State} {i : Instr} (h : Effect s i t) : sameInstance s t := by
  cases h <;> simp [Machine.sameInstance]

theorem step_of_words {s : State} {op x : PWord} (hop : memRead s s.pc = some op)
    (hx : memRead s (s.pc + 1) = some x) : step s = exec (decodePair op x) s :=
  step_of_fetch (by simp [fetchPair, hop, hx])

/-- All that STEP can do: commit, or report a fault or a refusal and keep the state. -/
theorem stepCommand_cases (s : State) :
    (∃ t, step s = .next t ∧ stepCommand s = (.ok, t)) ∨ (∃ f, step s = .fault f ∧ stepCommand s = (.fault f, s)) ∨
      ∃ r, step s = .refused r ∧ stepCommand s = (.refused r, s) := by
  cases h : step s <;> simp [stepCommand, h]

/-- Whatever relation is reflexive and holds across a step followed by more of the run, holds across the run. -/
theorem runFor_induction {P : State → State → Prop} (refl : ∀ s, P s s)
    (cons : ∀ s t u, step s = .next t → P t u → P s u) (k : Nat) (s : State) : P s (runFor k s).2 := by
  induction k generalizing s with
  | zero => unfold runFor; split <;> exact refl s
  | succ k ih =>
    cases hf : finished s
    · rcases hs : step s with t | f | r
      · rw [runFor_succ_next hf hs]; exact cons s t _ hs (ih t)
      · rw [runFor_succ_fault hf hs]; exact refl s
      · rw [runFor_succ_refused hf hs]; exact refl s
    · rw [runFor_of_finished hf]; exact refl s

/-- An unbounded run's answer is that of a bounded one, and never NotTerminated. -/
theorem runUnbounded_eq_some {p : Nat} {s : State} {q : Response × State} (h : runUnbounded p s = some q) :
    runFor p s = q ∧ q.1 ≠ .notTerminated := by
  unfold runUnbounded at h
  split at h
  · simp at h
  · rename_i hne
    obtain rfl := by simpa using h
    exact ⟨rfl, fun h' => hne (runFor p s).2 (Prod.ext h' rfl)⟩

/-- All that a command can do to an instance: NEW replaces it or leaves it, RESTART and RESTART_A, one step, a run, or
nothing. -/
theorem issue_cases {cfg : Config} {p : Nat} {s : State} {cmd : Command} {r : Response} {e : Engine}
    (h : issue cfg p (some s) cmd = some (r, e)) :
    (∃ a b c q, cmd = .new a b c q ∧
      ((∃ t, newInstance cfg a b c q = .ok t ∧ e = some t ∧ r = .ok) ∨ e = some s)) ∨
    (cmd = .restart ∧ e = some (restart s)) ∨ (∃ v, cmd = .restartA v ∧ e = some (restartA v s)) ∨
    (cmd = .step ∧ ∃ t, step s = .next t ∧ e = some t) ∨ (∃ k, e = some (runFor k s).2) ∨ e = some s := by
  cases cmd with
  | new a b c q =>
    simp only [issue] at h
    cases hn : newInstance cfg a b c q with
    | ok t => simp [hn] at h; exact .inl ⟨a, b, c, q, rfl, .inl ⟨t, hn, h.2.symm, h.1.symm⟩⟩
    | error f => simp [hn] at h; exact .inl ⟨a, b, c, q, rfl, .inr h.2.symm⟩
  | restart => simp [issue] at h; simp [h.2]
  | restartA v => simp [issue] at h; simp [h.2]
  | step =>
    obtain ⟨t, ht, e'⟩ | ⟨f, -, e'⟩ | ⟨f, -, e'⟩ := stepCommand_cases s <;> simp only [issue, e', Option.some.injEq,
      Prod.mk.injEq] at h
    · exact .inr (.inr (.inr (.inl ⟨rfl, t, ht, h.2.symm⟩)))
    · exact .inr (.inr (.inr (.inr (.inr h.2.symm))))
    · exact .inr (.inr (.inr (.inr (.inr h.2.symm))))
  | run fuel =>
    cases fuel with
    | some k => simp [issue] at h; exact .inr (.inr (.inr (.inr (.inl ⟨k, h.2.symm⟩))))
    | none =>
      simp only [issue, Option.map_eq_some_iff] at h
      obtain ⟨q, hq, hh⟩ := h
      obtain ⟨rfl, -⟩ := runUnbounded_eq_some hq
      simp at hh
      exact .inr (.inr (.inr (.inr (.inl ⟨p, hh.2.symm⟩))))
  | _ => simp [issue] at h; simp [h.2]

end Sys2Proof.Machine
end

