-- ==== Sys2Proof/Tests/Slice0.lean ====
section
/-! SUPPORT. The model's own tests. Expected values come from the spec: words from its encodings (R62, R67), results from
95_test_vectors.md by vector id. Then one witness for the hypotheses of each statement. -/

namespace Sys2Proof.Tests

open Sys2Proof.Machine

/-- A small instance: registers, program words, pc 0, unbounded log. -/
def start (a b c : Nat) (prog : List Nat) : State :=
  State.fresh Config.unbounded (BitVec.ofNat 64 a) (BitVec.ofNat 64 b) (BitVec.ofNat 64 c) (prog.map (BitVec.ofNat 3))

/-- The same with a log of at most `n` entries. -/
def bounded (n : Nat) (s : State) : State := { s with cfg := { s.cfg with outCapacity := some n } }

/-- `(A, B, C | pc | out)` after a committed step, as the vectors write it. -/
def after (o : Host.Outcome State Fault Refusal) : Option (Nat × Nat × Nat × Nat × List Nat) :=
  match o with
  | .next t => some (t.a.toNat, t.b.toNat, t.c.toNat, t.pc, t.out.map BitVec.toNat)
  | .fault _ => none
  | .refused _ => none

/-- The fault of a step that faults. -/
def faultOf (o : Host.Outcome State Fault Refusal) : Option Fault :=
  match o with
  | .next _ => none
  | .fault f => some f
  | .refused _ => none

/-! ### WellFormed refuses each reserved encoding (R69) -/

theorem test_wellFormed_refuses_adv_reserved : (Instr.adv .reserved).wellFormed = false := by decide
theorem test_wellFormed_refuses_bst_reserved : (Instr.bst .reserved).wellFormed = false := by decide
theorem test_wellFormed_refuses_out_reserved : (Instr.out .reserved).wellFormed = false := by decide
theorem test_wellFormed_refuses_bdv_reserved : (Instr.bdv .reserved).wellFormed = false := by decide
theorem test_wellFormed_refuses_cdv_reserved : (Instr.cdv .reserved).wellFormed = false := by decide
theorem test_wellFormed_accepts_operand_7 :
    (Instr.bxl 7#3).wellFormed ∧ (Instr.jnz 7#3).wellFormed ∧ (Instr.bxc 7#3).wellFormed := by decide

/-! ### Decoding: the words of each constructor, bit by bit from R67's patterns and R65's operand table -/

theorem test_decode_adv : decodePair 0b000#3 0b101#3 = .adv (.reg .b) := by decide
theorem test_decode_bxl : decodePair 0b001#3 0b111#3 = .bxl 0b111#3 := by decide
theorem test_decode_bst : decodePair 0b010#3 0b011#3 = .bst (.lit 0b11#2) := by decide
theorem test_decode_jnz : decodePair 0b011#3 0b001#3 = .jnz 0b001#3 := by decide
theorem test_decode_bxc : decodePair 0b100#3 0b111#3 = .bxc 0b111#3 := by decide
theorem test_decode_out : decodePair 0b101#3 0b100#3 = .out (.reg .a) := by decide
theorem test_decode_bdv : decodePair 0b110#3 0b110#3 = .bdv (.reg .c) := by decide
theorem test_decode_cdv : decodePair 0b111#3 0b111#3 = .cdv .reserved := by decide
theorem test_decode_table_word :
    decodeTableWord 6 0b110101 = some (.bdv (.reg .b)) ∧ decodeTableWord 8 0b110101 = some (.bdv (.reg .b)) ∧
    decodeTableWord 8 0b1000000 = none := by decide
theorem test_decodeRaw_names_a_wide_opcode : decodeRaw [8, 0] = .error (.opcodeOutOfRange 8) := by rfl

/-! ### One step of each instruction -/

/-- S1 (source: A=1024, B=3 gives 128) -/
theorem test_adv_by_b : after (step (start 1024 3 0 [0, 5])) = some (128, 3, 0, 2, []) := by decide
/-- V7: amount exactly 64 (D2) -/
theorem test_adv_by_64 : after (step (start (2 ^ 64 - 1) 64 0 [0, 5])) = some (0, 64, 0, 2, []) := by decide
/-- V13: the old B is the amount -/
theorem test_bdv_by_old_b :
    after (step (start (2 ^ 64 - 1) 1 0 [6, 5])) = some (2 ^ 64 - 1, 9223372036854775807, 0, 2, []) := by decide
/-- V14: amount 100 -/
theorem test_bdv_by_100 : after (step (start (2 ^ 64 - 1) 5 100 [6, 6])) = some (2 ^ 64 - 1, 0, 100, 2, []) := by decide
/-- V16: the old C is the amount -/
theorem test_cdv_by_old_c : after (step (start 40 0 2 [7, 6])) = some (40, 0, 10, 2, []) := by decide
/-- V18: the top two bits cleared -/
theorem test_cdv_by_2 :
    after (step (start (2 ^ 64 - 1) 0 0 [7, 2])) = some (2 ^ 64 - 1, 0, 4611686018427387903, 2, []) := by decide
/-- S4 (source: B=29, literal 7 gives 26) -/
theorem test_bxl_7 : after (step (start 0 29 0 [1, 7])) = some (0, 26, 0, 2, []) := by decide
/-- V21: the high bits are kept -/
theorem test_bxl_keeps_high_bits :
    after (step (start 0 (2 ^ 64 - 1) 0 [1, 7])) = some (0, 18446744073709551608, 0, 2, []) := by decide
/-- V24: A mod 8 -/
theorem test_bst_of_a : after (step (start (2 ^ 64 - 1) 0 0 [2, 4])) = some (2 ^ 64 - 1, 7, 0, 2, []) := by decide
/-- V28: the reserved operand -/
theorem test_bst_reserved : faultOf (step (start 5 5 5 [2, 7])) = some (.invalidOperand 0 7#3) := by decide
/-- S5 (source: 2024 XOR 43690 is 44354) -/
theorem test_bxc_source : after (step (start 0 2024 43690 [4, 0])) = some (0, 44354, 43690, 2, []) := by decide
/-- V29: operand 7 is ignored -/
theorem test_bxc_operand_7 : after (step (start 0 5 3 [4, 7])) = some (0, 6, 3, 2, []) := by decide
/-- V36: an odd target -/
theorem test_jnz_taken_odd : after (step (start 1 0 0 [3, 1])) = some (1, 0, 0, 1, []) := by decide
/-- V34: not taken, the advance happens -/
theorem test_jnz_not_taken : after (step (start 0 0 0 [3, 0])) = some (0, 0, 0, 2, []) := by decide
/-- V41: A mod 8, A unchanged -/
theorem test_out_of_a : after (step (start 10 0 0 [5, 4])) = some (10, 0, 0, 2, [2]) := by decide
/-- V45: a bounded log -/
theorem test_out_overflow : faultOf (step (bounded 0 (start 0 0 0 [5, 0]))) = some (.outputOverflow 0) := by decide

/-! ### Fetch, placing, the reference algorithm, commands -/

/-- V32: the unused operand of bxc is fetched -/
theorem test_missing_operand : faultOf (step (start 0 1 2 [4])) = some (.programBounds 0 1) := by decide
/-- V47: STEP on an empty program -/
theorem test_step_when_finished : faultOf (step (start 7 1 2 [])) = some (.programBounds 0 0) := by decide
/-- from reset, a placed `out 3` (pair value 0o53) runs first and emits 3 (V40) -/
theorem test_withFetchWord_runs_first : after (step (State.reset.withFetchWord 8 0o53)) = some (0, 0, 0, 2, [3]) := by
  decide
/-- R203: the wide reference algorithm faults on an opcode above 7 -/
theorem test_reference_invalid_opcode : Reference.STEP none { A := 0, B := 0, C := 0, pc := 0, out := [], P := [8, 0] } =
    .fault (.invalidOpcode 0 8) := by decide
/-- V51 -/
theorem test_new_refuses_a_wide_word : issue Config.unbounded 0 none (.new 5#64 0#64 0#64 [3, 8]) =
    some (.refused .wordOutOfRange, none) := by decide
/-- V53: one committed step, then the fault at the jump's target -/
theorem test_run_faults_after_a_bad_jump : (issue Config.unbounded 2 (some (start 1 0 0 [3, 7])) (.run none)).map (·.1) =
    some (.fault (.programBounds 7 7)) := by decide
/-- V50: the same answer again, so the unbounded run has not returned -/
theorem test_run_not_terminated : (runFor 1 (start 5 0 0 [3, 0])).1 = .notTerminated := by decide
/-- R71: `adv B` is `adv 5` -/
theorem test_assemble_letter : assemble ⟨"adv", 'B'⟩ = some (.adv (.reg .b)) ∧
    (disassemble (.adv (.reg .b))).render = "adv 5" := by decide

/-! ### Witnesses: for each statement with hypotheses, a state and operands that meet them, clause by clause -/

theorem witness_EveryInstructionIsTwoWords : decode [0#3, 1#3, 2#3] = .ok (.adv (.lit 1#2), [2#3]) := rfl
theorem witness_EncodeOfDecode : decode [7#3, 6#3] = .ok (.cdv (.reg .c), []) := rfl
theorem witness_WideDecoderRefusesLargeWords : 7 < 8 ∧ (7 ≤ 7 ∧ 7 < 8) := by decide
theorem witness_AssemblyReadsBack : "cdv" ∈ ["adv", "bst", "out", "bdv", "cdv"] := by decide
theorem witness_OperandsResolveByTheTable : (3#3 : PWord).toNat ≤ 3 := by decide
theorem witness_AdvShiftsAIntoA : comboValue (.reg .a) (start 9 0 0 []) = some 9#64 := rfl
theorem witness_BdvShiftsAIntoB : comboValue (.reg .b) (start 0 3 0 []) = some 3#64 := rfl
theorem witness_CdvShiftsAIntoC : comboValue (.reg .c) (start 0 0 2 []) = some 2#64 := rfl
theorem witness_BstStoresLowBitsInB : comboValue (.lit 3#2) State.reset = some 3#64 := rfl
theorem witness_JnzJumpsWhenANonzero : (start 1 0 0 []).a ≠ 0#64 ∧ (start 0 0 0 []).a = 0#64 := by decide
theorem witness_OutAppendsLowBits : ∃ s : State, comboValue (.reg .a) s = some 10#64 ∧
    (∀ n, s.cfg.outCapacity = some n → s.out.length < n) ∧
    ∃ t, exec (.out (.reg .a)) s = .next t ∧ t.out ≠ s.out :=
  ⟨bounded 1 (start 10 0 0 []), rfl, by decide, _, rfl, by decide⟩
theorem witness_ShiftsDivideByAPowerOfTwo : ∃ s : State, comboValue (.reg .b) s = some 64#64 ∧ 64 ≤ (64#64 : Word).toNat :=
  ⟨start 0 64 0 [], rfl, by decide⟩
theorem witness_BxlTwiceRestoresB : ∃ s t u : State, exec (.bxl 7#3) s = .next t ∧ exec (.bxl 7#3) t = .next u :=
  ⟨start 0 29 0 [], _, _, rfl, rfl⟩
theorem witness_OutOnAFullLogOverflows : ∃ s : State, comboValue (.lit 0#2) s = some 0#64 ∧
    s.cfg.outCapacity = some 0 ∧ 0 ≤ s.out.length ∧ State.reset.cfg.outCapacity = none :=
  ⟨bounded 0 (start 0 0 0 []), rfl, rfl, by decide, rfl⟩
theorem witness_RegisterInstructionsFrame : ∃ s : State, (∃ t, exec (.adv (.lit 1#2)) s = .next t) ∧
    (∃ t, exec (.bdv (.lit 1#2)) s = .next t) ∧ (∃ t, exec (.bxl 1#3) s = .next t) ∧
    (∃ t, exec (.bst (.lit 1#2)) s = .next t) ∧ (∃ t, exec (.bxc 1#3) s = .next t) ∧
    ∃ t, exec (.cdv (.lit 1#2)) s = .next t :=
  ⟨start 1 2 3 [], ⟨_, rfl⟩, ⟨_, rfl⟩, ⟨_, rfl⟩, ⟨_, rfl⟩, ⟨_, rfl⟩, ⟨_, rfl⟩⟩
theorem witness_JnzAndOutFrame : ∃ s : State, (∃ t, exec (.jnz 7#3) s = .next t) ∧
    (∃ t, exec (.out (.reg .c)) s = .next t) ∧ 0 < s.out.length :=
  ⟨{ start 1 2 3 [] with out := [4#3] }, ⟨_, rfl⟩, ⟨_, rfl⟩, by decide⟩
theorem witness_StepRunsTheDecodedInstruction : ∃ s : State,
    decode (s.prog.drop s.pc) = .ok (.jnz 3#3, [1#3]) := ⟨{ start 9 0 0 [1, 3, 3, 1] with pc := 1 }, rfl⟩
theorem witness_FetchChecksBothIndexes :
    progLen (start 0 0 0 []) ≤ (start 0 0 0 []).pc ∧ (start 0 0 0 [4]).pc + 1 = progLen (start 0 0 0 [4]) ∧
    memRead (start 0 0 0 [4, 7]) 0 = some 4#3 ∧ memRead (start 0 0 0 [4, 7]) (0 + 1) = some 7#3 := by decide
theorem witness_FaultsAfterTheFetch :
    (memRead (start 0 0 0 [5, 7]) 0 = some 5#3 ∧ memRead (start 0 0 0 [5, 7]) 1 = some 7#3 ∧
      5#3 ∈ [0#3, 2#3, 5#3, 6#3, 7#3]) ∧
    (memRead (bounded 0 (start 0 0 0 [5, 6])) 1 = some 6#3 ∧ 6#3 ≠ 7#3 ∧
      (bounded 0 (start 0 0 0 [5, 6])).cfg.outCapacity = some 0) ∧
    (memRead (start 0 0 0 [4, 7]) 0 = some 4#3 ∧ 4#3 ∈ [1#3, 3#3, 4#3]) := by decide
theorem witness_EveryFaultHasItsCodeAndRecord : ∃ s t u : State, step s = .fault (.programBounds 0 1) ∧
    step t = .fault (.invalidOperand 0 7#3) ∧ step u = .fault (.outputOverflow 0) :=
  ⟨start 0 0 0 [4], start 0 0 0 [0, 7], bounded 0 (start 0 0 0 [5, 0]), rfl, rfl, rfl⟩
theorem witness_PcAdvancesByTwoUnlessJumping : (∃ s t : State, step s = .next t ∧ memRead s s.pc = some 3#3 ∧
      memRead s (s.pc + 1) = some 7#3 ∧ s.a ≠ 0#64) ∧
    (∃ s t : State, step s = .next t ∧ memRead s s.pc = some 4#3 ∧ memRead s (s.pc + 1) = some 0#3) ∧
    ∃ s t : State, stepCommand s = (.fault (.programBounds 0 0), t) :=
  ⟨⟨start 1 0 0 [3, 7], _, rfl, rfl, rfl, by decide⟩, ⟨start 1 0 0 [4, 0], _, rfl, rfl, rfl⟩, start 0 0 0 [], _, rfl⟩
theorem witness_FaultChangesNothingAndRepeats : ∃ s t : State, stepCommand s = (.fault (.programBounds 0 1), t) :=
  ⟨start 5 0 0 [0], _, rfl⟩
theorem witness_BadJumpTargetFaultsAtTheNextStep : (start 1 0 0 [3, 2]).a ≠ 0#64 ∧
    (2#3 : PWord).toNat = progLen (start 1 0 0 [3, 2]) ∧ progLen (start 1 0 0 [3, 2]) < (3#3 : PWord).toNat ∧
    (1#3 : PWord).toNat + 1 = progLen (start 1 0 0 [3, 2]) := by decide
theorem witness_OnlyItsOwnInstructionsWriteARegister : (∃ s t : State, step s = .next t ∧ t.a ≠ s.a) ∧
    (∃ s t : State, step s = .next t ∧ t.c ≠ s.c) ∧ ∃ s t : State, step s = .next t ∧ t.b ≠ s.b :=
  ⟨⟨start 4 0 0 [0, 1], _, rfl, by decide⟩, ⟨start 4 0 0 [7, 0], _, rfl, by decide⟩,
    start 4 0 0 [6, 0], _, rfl, by decide⟩
theorem witness_ProgramAndSnapshotNeverChange : ∃ r e, (∀ a b c prog, Command.restart ≠ .new a b c prog) ∧
    issue Config.unbounded 0 (some (start 1 2 3 [0, 1])) .restart = some (r, e) := ⟨_, _, by simp, rfl⟩
theorem witness_OutputLogOnlyGrows : (∃ s t r, issue Config.unbounded 0 (some s) .step = some (r, some t)) ∧
    (∃ t, issue Config.unbounded 0 none (.new 0#64 0#64 0#64 []) = some (.ok, some t)) ∧
    (∃ s t, issue Config.unbounded 0 (some s) .restart = some (.ok, some t)) ∧
    ∃ s t, issue Config.unbounded 0 (some s) (.restartA 3#64) = some (.ok, some t) :=
  ⟨⟨start 1 0 0 [5, 4], _, _, rfl⟩, ⟨_, rfl⟩, ⟨start 1 0 0 [], _, rfl⟩, start 1 0 0 [], _, rfl⟩
theorem witness_StepDependsOnVisibleStateOnly : ∃ s t s' : State, t.a = s.a ∧ t.b = s.b ∧ t.c = s.c ∧ t.pc = s.pc ∧
    t.out = s.out ∧ t.prog = s.prog ∧ t.cfg.outCapacity = s.cfg.outCapacity ∧ t.a0 ≠ s.a0 ∧ step s = .next s' ∧
    (∃ f, step { s with prog := [] } = .fault f) :=
  ⟨start 1 0 0 [0, 1], { start 1 0 0 [0, 1] with a0 := 9#64 }, _, rfl, rfl, rfl, rfl, rfl, rfl, rfl, by decide, rfl, _, rfl⟩
theorem start_inv (a b c : Nat) (prog : List Nat) : (start a b c prog).Inv :=
  ⟨Nat.zero_le _, rfl, by simp [start, Config.unbounded]⟩
theorem witness_EveryStepKeepsTheInvariant : ∃ s t : State, s.Inv ∧ step s = .next t :=
  ⟨start 1 0 0 [3, 7], _, start_inv _ _ _ _, rfl⟩
theorem witness_EveryCommandSequenceKeepsTheInvariant : ∃ t, (∀ s, some (start 1 0 0 [5, 4]) = some s → s.Inv) ∧
    issueAll Config.unbounded 3 (some (start 1 0 0 [5, 4])) [.run none, .restart, .step] = some (some t) :=
  ⟨_, fun _ h => Option.some.inj h ▸ start_inv _ _ _ _, rfl⟩
theorem witness_PcFitsInItsBits : ∃ s : State, s.Inv ∧ s.cfg.maxProgLen = some 2 :=
  ⟨State.fresh ⟨none, some 2⟩ 0#64 0#64 0#64 [3#3, 0#3], ⟨Nat.zero_le _, rfl, by simp⟩, rfl⟩
theorem witness_NewSetsEveryPieceOfState : (∀ w ∈ [0, 7], w ≤ 7) ∧
    ∀ m, (Config.mk none (some 2)).maxProgLen = some m → [0, 7].length ≤ m := by simp
theorem witness_NewRefusesBadPrograms : (∃ w ∈ [3, 8], 7 < w) ∧
    ((∀ w ∈ [0, 7, 1], w ≤ 7) ∧ (Config.mk none (some 2)).maxProgLen = some 2 ∧ 2 < [0, 7, 1].length) := by simp
theorem witness_RestartForgetsEveryEarlierRun : ∃ s e, newInstance Config.unbounded 10#64 4#64 5#64 [5, 4] = .ok s ∧
    (∀ cmd ∈ [Command.run none], ∀ a b c q, cmd ≠ .new a b c q) ∧
    issueAll Config.unbounded 2 (some s) [.run none] = some e := ⟨_, _, rfl, by simp, rfl⟩
theorem witness_StepCommandReportsItsOutcome : (∃ s t : State, step s = .next t) ∧
    ∃ s : State, step s = .fault (.programBounds 0 0) ∧ s.pc = progLen s :=
  ⟨⟨start 0 0 0 [4, 0], _, rfl⟩, start 7 1 2 [], rfl, rfl⟩
theorem witness_RunStopsAtTheFirstFinishOrFault : (∃ t, runFor 1 (start 0 0 0 [3, 0]) = (.finished, t)) ∧
    (∃ t, runFor 1 (start 5 0 0 [3, 0]) = (.notTerminated, t)) ∧
    ∃ t, runFor 2 (start 1 0 0 [3, 7]) = (.fault (.programBounds 7 7), t) := ⟨⟨_, rfl⟩, ⟨_, rfl⟩, _, rfl⟩
theorem witness_RunResumesAfterNotTerminated : ∃ t, runFor 1 (start 5 0 0 [3, 0]) = (.notTerminated, t) := ⟨_, rfl⟩
theorem witness_EveryCommandHasOneAnswer : ∃ r e, Answers Config.unbounded (some (start 0 0 0 [3, 0])) (.run none) r e :=
  ⟨_, _, 1, rfl⟩
theorem witness_JumpToItselfNeverReturns : ∃ s : State, s.a ≠ 0#64 ∧ memRead s s.pc = some 3#3 ∧
    memRead s (s.pc + 1) = some 0#3 ∧ (0#3 : PWord).toNat = s.pc := ⟨start 5 0 0 [3, 0], by decide, rfl, rfl, rfl⟩
theorem witness_RunsWithoutAdvKeepA : ∃ s : State, s.prog ≠ [] ∧ ∀ j, memRead s j ≠ some 0#3 :=
  ⟨start 5 0 0 [6, 1], by decide, fun j => by
    match j with
    | 0 => decide
    | 1 => decide
    | _ + 2 => simp [memRead, start]⟩
theorem witness_FinishedIsPcAtTheEnd : ∃ s : State, s.prog.length < s.pc := ⟨{ start 0 0 0 [] with pc := 7 }, by decide⟩
theorem witness_NothingRunsBeforeNew : ∀ a b c prog, Command.readOut ≠ .new a b c prog := by simp
theorem witness_EnginesDoNotSeeEachOther : ∃ r es, issueAt Config.unbounded 0 [some (start 0 0 0 [4, 0]), none] 0 .step =
    some (r, es) ∧ 1 ≠ 0 := ⟨_, _, rfl, by decide⟩

end Sys2Proof.Tests
end

section
/-! PROOF. The output log (20_memory.md R43): what each operation does to it, and that only NEW, RESTART and RESTART_A
clear it. -/

namespace Sys2Proof.Machine

/-! ### The log across a step and across a run -/

/-- An effect either appends one entry or keeps the log. -/
theorem Effect.out_prefix {s t : State} {i : Instr} (h : Effect s i t) : s.out <+: t.out := by
  cases h with
  | out hv hf => exact List.prefix_append _ _
  | _ => simp

theorem step_out_prefix {s t : State} (h : step s = .next t) : s.out <+: t.out := by
  obtain ⟨op, x, -, -, e⟩ := step_next h
  exact e.out_prefix

theorem runFor_out_prefix (k : Nat) (s : State) : s.out <+: (runFor k s).2.out :=
  runFor_induction (P := fun s t => s.out <+: t.out) (fun _ => List.prefix_rfl)
    (fun _ _ _ hs hrest => (step_out_prefix hs).trans hrest) k s

/-! ### The clearing commands -/

theorem newInstance_out {cfg : Config} {a b c : Word} {prog : List Nat} {t : State}
    (h : newInstance cfg a b c prog = .ok t) : t.out = [] := by
  obtain ⟨-, e⟩ | ⟨-, -, e⟩ | ⟨-, -, e⟩ := newInstance_cases cfg a b c prog
  · simp [e] at h
  · simp [e] at h
  · obtain rfl : State.fresh cfg a b c _ = t := by simpa [e] using h
    rfl

/-- NEW answers Ok exactly when it made the instance, whatever the engine held before. -/
theorem issue_new_eq_ok_iff {cfg : Config} {p : Nat} {e : Engine} {a b c : Word} {prog : List Nat} {t : State} :
    issue cfg p e (.new a b c prog) = some (.ok, some t) ↔ newInstance cfg a b c prog = .ok t := by
  cases hn : newInstance cfg a b c prog <;> simp [issue, hn]

/-- Any command keeps the old log at the front of the new one, but for a clearing one. -/
theorem issue_out {cfg : Config} {p : Nat} {s t : State} {cmd : Command} {r : Response}
    (h : issue cfg p (some s) cmd = some (r, some t)) :
    s.out <+: t.out ∨
      (t.out = [] ∧ ((∃ a b c prog, cmd = .new a b c prog) ∨ cmd = .restart ∨ ∃ v, cmd = .restartA v)) := by
  obtain ⟨a, b, c, q, rfl, ⟨u, hn, he, -⟩ | he⟩ | ⟨rfl, he⟩ | ⟨v, rfl, he⟩ | ⟨rfl, u, hs, he⟩ | ⟨k, he⟩ | he :=
    issue_cases h <;> obtain rfl := Option.some.inj he
  · exact .inr ⟨newInstance_out hn, .inl ⟨a, b, c, q, rfl⟩⟩
  · exact .inl List.prefix_rfl
  · exact .inr ⟨restart_out s, .inr (.inl rfl)⟩
  · exact .inr ⟨restartA_out v s, .inr (.inr ⟨v, rfl⟩)⟩
  · exact .inl (step_out_prefix hs)
  · exact .inl (runFor_out_prefix k s)
  · exact .inl List.prefix_rfl

/-- Settles O36: by cases on what a command can do, the log across a run being an induction over its steps. -/
theorem outputLogOnlyGrows : Obligations.OutputLogOnlyGrows := by
  refine ⟨outAppend_out, fun _ _ _ _ _ _ => issue_out, ?_⟩
  rintro cfg p e t a b c v prog (hnew | ⟨s, rfl, hrestart | hrestartA⟩)
  · exact newInstance_out (issue_new_eq_ok_iff.1 hnew)
  · obtain rfl : restart s = t := by simpa [issue] using hrestart
    exact restart_out s
  · obtain rfl : restartA v s = t := by simpa [issue] using hrestartA
    exact restartA_out v s

end Sys2Proof.Machine
end

section
/-! PROOF. The length of an instruction (30_encoding.md R60): the encoder writes two program words and the decoder uses
up two. -/

namespace Sys2Proof

@[simp] theorem encode_length (i : Instr) : (encode i).length = 2 := rfl

@[simp] theorem decode_nil : decode [] = .error .noOpcode := rfl

@[simp] theorem decode_singleton (w : PWord) : decode [w] = .error .noOperand := rfl

/-- The decoder answers an instruction exactly when there are two words to read it from, and leaves what follows them. -/
theorem decode_eq_ok_iff {ws rest : List PWord} {i : Instr} :
    decode ws = .ok (i, rest) ↔ ∃ op x, ws = op :: x :: rest ∧ decodePair op x = i := by
  match ws with
  | [] => simp
  | [_] => simp
  | op :: x :: tail =>
    simp only [decode_pair, Except.ok.injEq, Prod.mk.injEq, List.cons.injEq]
    constructor
    · rintro ⟨rfl, rfl⟩
      exact ⟨op, x, ⟨rfl, rfl, rfl⟩, rfl⟩
    · rintro ⟨_, _, ⟨rfl, rfl, rfl⟩, rfl⟩
      exact ⟨rfl, rfl⟩

/-- Settles O2: the words an instruction is decoded from are two words before the rest. -/
theorem everyInstructionIsTwoWords : Obligations.EveryInstructionIsTwoWords := by
  refine ⟨encode_length, fun ws i rest h => ?_, decode_nil, decode_singleton,
    fun op x rest => ⟨decodePair op x, decode_pair op x rest⟩⟩
  obtain ⟨op, x, rfl, -⟩ := decode_eq_ok_iff.1 h
  rfl

end Sys2Proof
end

section
/-! PROOF. What a step can see (40_execution_cycle.md R88): two states that differ in the snapshot and the maximum program
length only answer alike, shown operation by operation. -/

namespace Sys2Proof.Machine

/-! ### States and outcomes that agree -/

/-- Two states agree on all that R88 lets a step depend on. -/
structure SameVisible (s t : State) : Prop where
  a : t.a = s.a
  b : t.b = s.b
  c : t.c = s.c
  pc : t.pc = s.pc
  out : t.out = s.out
  prog : t.prog = s.prog
  outCapacity : t.cfg.outCapacity = s.cfg.outCapacity

/-- Two outcomes agree: next states alike on all that is visible, or the same fault, or the same refusal. -/
inductive SameOutcome : Host.Outcome State Fault Refusal → Host.Outcome State Fault Refusal → Prop where
  | next {s t : State} : SameVisible s t → SameOutcome (.next s) (.next t)
  | fault (f : Fault) : SameOutcome (.fault f) (.fault f)
  | refused (r : Refusal) : SameOutcome (.refused r) (.refused r)

theorem SameOutcome.of_fault {o : Host.Outcome State Fault Refusal} {f : Fault} (h : SameOutcome (.fault f) o) :
    o = .fault f := by
  cases h; rfl

theorem SameOutcome.of_next {o : Host.Outcome State Fault Refusal} {s : State} (h : SameOutcome (.next s) o) :
    ∃ t, o = .next t ∧ SameVisible s t := by
  cases h with
  | next hv => exact ⟨_, rfl, hv⟩

namespace SameVisible

variable {s t : State}

/-! ### The state updates -/

theorem advance (h : SameVisible s t) : SameVisible (advance s) (advance t) :=
  { h with pc := congrArg (· + 2) h.pc }

theorem jumpTo (h : SameVisible s t) (x : PWord) : SameVisible (jumpTo x s) (jumpTo x t) :=
  { h with pc := rfl }

theorem outAppend (h : SameVisible s t) (v : PWord) : SameVisible (outAppend v s) (outAppend v t) :=
  { h with out := congrArg (· ++ [v]) h.out }

theorem writeReg (h : SameVisible s t) (r : Reg) (v : Word) : SameVisible (writeReg r v s) (writeReg r v t) := by
  cases r with
  | a => exact { h with a := rfl }
  | b => exact { h with b := rfl }
  | c => exact { h with c := rfl }

/-! ### What is read of a state -/

theorem comboValue (h : SameVisible s t) (x : Combo) : comboValue x t = comboValue x s := by
  cases x with
  | lit n => rfl
  | reg r => cases r <;> simp [Machine.comboValue, h.a, h.b, h.c]
  | reserved => rfl

theorem outFull (h : SameVisible s t) : outFull t = outFull s := by simp [Machine.outFull, h.outCapacity, h.out]

theorem fetchPair (h : SameVisible s t) : fetchPair t = fetchPair s := by
  simp [Machine.fetchPair, h.pc, memRead_congr h.prog]

/-! ### The instructions -/

theorem withCombo (h : SameVisible s t) (x : Combo) {go go' : Word → Host.Outcome State Fault Refusal}
    (hgo : ∀ v, SameOutcome (go v) (go' v)) : SameOutcome (withCombo x s go) (withCombo x t go') := by
  obtain ⟨v, hv, e⟩ | ⟨rfl, e⟩ := withCombo_cases x s go
  · rw [e, withCombo_value ((h.comboValue x).trans hv)]
    exact hgo v
  · rw [e, withCombo_reserved, h.pc]
    exact .fault _

theorem emit (h : SameVisible s t) (v : PWord) : SameOutcome (emit v s) (emit v t) := by
  unfold Machine.emit
  rw [h.outFull, h.pc]
  split
  · exact .fault _
  · exact .next (h.outAppend v).advance

theorem execJnz (h : SameVisible s t) (x : PWord) : SameOutcome (execJnz x s) (execJnz x t) := by
  unfold Machine.execJnz jumpTaken
  rw [h.a]
  split
  · exact .next (h.jumpTo x)
  · exact .next h.advance

theorem shiftAInto (h : SameVisible s t) (dst : Reg) (x : Combo) :
    SameOutcome (shiftAInto dst x s) (shiftAInto dst x t) :=
  h.withCombo x fun v => by rw [h.a]; exact .next (h.writeReg dst _).advance

theorem exec (h : SameVisible s t) (i : Instr) : SameOutcome (exec i s) (exec i t) := by
  cases i with
  | adv x => exact h.shiftAInto .a x
  | bdv x => exact h.shiftAInto .b x
  | cdv x => exact h.shiftAInto .c x
  | bst x => exact h.withCombo x fun v => .next (h.writeReg .b _).advance
  | out x => exact h.withCombo x fun v => h.emit (low3 v)
  | jnz x => exact h.execJnz x
  | bxl x =>
    simp only [Machine.exec, execBxl, h.b]
    exact .next (h.writeReg .b _).advance
  | bxc x =>
    simp only [Machine.exec, execBxc, h.b, h.c]
    exact .next (h.writeReg .b _).advance

/-- The noninterference lemma: states that agree step to outcomes that agree. -/
theorem step (h : SameVisible s t) : SameOutcome (step s) (step t) := by
  unfold Machine.step
  rw [h.fetchPair]
  split
  · exact .fault _
  · exact h.exec _

end SameVisible

/-- Settles O37: the fetch and every instruction carry agreeing states to agreeing outcomes. -/
theorem stepDependsOnVisibleStateOnly : Obligations.StepDependsOnVisibleStateOnly := by
  intro s t ha hb hc hpc hout hprog hcap
  have same : SameOutcome (step s) (step t) := SameVisible.step ⟨ha, hb, hc, hpc, hout, hprog, hcap⟩
  constructor
  · intro f hf
    exact (hf ▸ same).of_fault
  · intro s' hs'
    obtain ⟨t', ht', hv⟩ := (hs' ▸ same).of_next
    exact ⟨t', ht', hv.a, hv.b, hv.c, hv.pc, hv.out⟩

end Sys2Proof.Machine
end

section
/-! PROOF. The pc across a step (40_execution_cycle.md R84): two words on, but for a taken jnz. -/

namespace Sys2Proof

theorem decodePair_jnz (x : PWord) : decodePair 3#3 x = .jnz x := rfl

/-- The decoder drops no bit of the opcode word (R67). -/
@[simp] theorem opcode_decodePair (op x : PWord) : (decodePair op x).opcode = op := by revert op x; decide

theorem opcode_eq_of_decodePair_eq_jnz {op x y : PWord} (h : decodePair op x = .jnz y) : op = 3#3 := by
  rw [← opcode_decodePair op x, h]
  rfl

namespace Machine

theorem Effect.pc_of_jnz {s t : State} {x : PWord} (h : Effect s (.jnz x) t) :
    t.pc = if s.a ≠ 0#64 then x.toNat else s.pc + 2 := by
  cases h with
  | jnzTaken ha => simp [ha]
  | jnzNotTaken ha => simp [ha]

theorem Effect.pc_of_ne_jnz {s t : State} {i : Instr} (h : Effect s i t) (hi : ∀ x, i ≠ .jnz x) :
    t.pc = s.pc + 2 := by
  cases h with
  | jnzTaken => exact absurd rfl (hi _)
  | jnzNotTaken => exact absurd rfl (hi _)
  | _ => simp

/-- A STEP that reports a fault is a step that faulted, and the state is the one before it (R85). -/
theorem stepCommand_eq_fault {s t : State} {f : Fault} (h : stepCommand s = (.fault f, t)) :
    step s = .fault f ∧ t = s := by
  obtain ⟨u, -, e⟩ | ⟨g, hg, e⟩ | ⟨r, -, e⟩ := stepCommand_cases s
  · simp [e] at h
  · obtain ⟨rfl, rfl⟩ : g = f ∧ s = t := by simpa [e] using h
    exact ⟨hg, rfl⟩
  · simp [e] at h

/-- Settles O31: by whether the opcode is jnz's, from the instruction's effect on pc; a fault keeps the whole state. -/
theorem pcAdvancesByTwoUnlessJumping : Obligations.PcAdvancesByTwoUnlessJumping := by
  constructor
  · intro s t op x hs hop hx
    have effect : Effect s (decodePair op x) t := exec_next (step_of_words hop hx ▸ hs)
    by_cases hjnz : op = 3#3
    · subst hjnz
      rw [decodePair_jnz] at effect
      simpa using effect.pc_of_jnz
    · simpa [hjnz] using effect.pc_of_ne_jnz fun _ h => hjnz (opcode_eq_of_decodePair_eq_jnz h)
  · intro s t f h
    rw [(stepCommand_eq_fault h).2]

end Machine

end Sys2Proof
end

section
/-! PROOF. The fetch's bounds checks (40_execution_cycle.md R81): the opcode index first, then the operand index. -/

namespace Sys2Proof.Machine

theorem fetchPair_of_progLen_le {s : State} (h : progLen s ≤ s.pc) :
    fetchPair s = .error (.programBounds s.pc s.pc) := by
  simp [fetchPair, (memRead_eq_none_iff s s.pc).2 h]

theorem fetchPair_of_last_word {s : State} (h : s.pc + 1 = progLen s) :
    fetchPair s = .error (.programBounds s.pc (s.pc + 1)) := by
  obtain ⟨op, hop⟩ := (memRead_isSome_iff s s.pc).2 (by omega)
  simp [fetchPair, hop, (memRead_eq_none_iff s (s.pc + 1)).2 h.ge]

theorem fetchPair_of_words {s : State} {op x : PWord} (hop : memRead s s.pc = some op)
    (hx : memRead s (s.pc + 1) = some x) : fetchPair s = .ok (op, x) := by
  simp [fetchPair, hop, hx]

/-- Settles O27: a failed fetch is the step's fault, whatever the opcode. -/
theorem fetchChecksBothIndexes : Obligations.FetchChecksBothIndexes := fun _ =>
  ⟨fun h => step_of_fetch_error (fetchPair_of_progLen_le h), fun h => step_of_fetch_error (fetchPair_of_last_word h),
    fun _ _ => fetchPair_of_words⟩

end Sys2Proof.Machine
end

section
/-! PROOF. The two XOR instructions, bxl and bxc (42_bitwise.md): each writes B and advances, in every state. -/

namespace Sys2Proof

theorem decodePair_bxl (x : PWord) : decodePair 1#3 x = .bxl x := rfl

theorem decodePair_bxc (x : PWord) : decodePair 4#3 x = .bxc x := rfl

namespace Machine

/-- The literal of R64 by its number, the 3-bit word read without a sign. -/
theorem literalValue_eq_ofNat (x : PWord) : literalValue x = BitVec.ofNat 64 x.toNat :=
  (BitVec.ofNat_toNat 64 x).symm

theorem exec_bxl (x : PWord) (s : State) :
    exec (.bxl x) s = .next (advance (writeReg .b (s.b ^^^ literalValue x) s)) := rfl

theorem exec_bxc (x : PWord) (s : State) : exec (.bxc x) s = .next (advance (writeReg .b (s.b ^^^ s.c) s)) := rfl

/-- A write of B and the advance, as one record update: what they write and all that they leave. -/
theorem advance_writeReg_b (v : Word) (s : State) :
    advance (writeReg .b v s) = { s with b := v, pc := s.pc + 2 } := rfl

/-- Settles O12: bxl writes B XOR the literal, and the literal is the operand word's number. -/
theorem bxlXorsLiteralIntoB : Obligations.BxlXorsLiteralIntoB := by
  refine ⟨decodePair_bxl, fun s x => ?_⟩
  rw [exec_bxl, advance_writeReg_b, literalValue_eq_ofNat]

/-- Settles O14: bxc writes B XOR C, and its operand word stands nowhere in what it writes. -/
theorem bxcXorsCIntoB : Obligations.BxcXorsCIntoB := by
  refine ⟨decodePair_bxc, fun s x => ?_⟩
  rw [exec_bxc, advance_writeReg_b]

end Machine

end Sys2Proof
end

section
/-! PROOF. The conditional jump, jnz (43_jump.md R140): A alone decides between the literal and the advance, in every
state. -/

namespace Sys2Proof.Machine

theorem exec_jnz (x : PWord) (s : State) :
    exec (.jnz x) s = .next (if jumpTaken s then jumpTo x s else advance s) := rfl

theorem exec_jnz_of_ne_zero {s : State} (ha : s.a ≠ 0#64) (x : PWord) : exec (.jnz x) s = .next (jumpTo x s) := by
  rw [exec_jnz, if_pos ((jumpTaken_iff s).2 ha)]

theorem exec_jnz_of_eq_zero {s : State} (ha : s.a = 0#64) (x : PWord) : exec (.jnz x) s = .next (advance s) := by
  rw [exec_jnz, if_neg fun h => (jumpTaken_iff s).1 h ha]

/-- The jump as a record update: pc is all that it writes. -/
theorem jumpTo_eq (x : PWord) (s : State) : jumpTo x s = { s with pc := x.toNat } := rfl

/-- The advance as a record update: pc is all that it writes. -/
theorem advance_eq (s : State) : advance s = { s with pc := s.pc + 2 } := rfl

/-- Settles O15: by whether A is zero, each branch of jnz being a write of pc alone. -/
theorem jnzJumpsWhenANonzero : Obligations.JnzJumpsWhenANonzero := by
  refine ⟨decodePair_jnz, fun s x => ⟨fun ha => ?_, fun ha => ?_⟩⟩
  · rw [exec_jnz_of_ne_zero ha, jumpTo_eq]
  · rw [exec_jnz_of_eq_zero ha, advance_eq]

end Sys2Proof.Machine
end

section
/-! PROOF. The commands RESTART, STEP and FINISHED (45_host_commands.md R163, R168, R172) on an engine that holds an
instance. -/

namespace Sys2Proof.Machine

/-! ### RESTART -/

theorem issue_restart (cfg : Config) (p : Nat) (s : State) :
    issue cfg p (some s) .restart = some (.ok, some (restart s)) := rfl

/-- RESTART as a record update: the registers, pc and the log are all that it writes. -/
theorem restart_eq (s : State) : restart s = { s with a := s.a0, b := s.b0, c := s.c0, pc := 0, out := [] } := rfl

/-- Settles O45: RESTART is one record update, made without a condition. -/
theorem restartRestoresTheSnapshot : Obligations.RestartRestoresTheSnapshot := by
  intro cfg p s
  rw [issue_restart, restart_eq]

/-! ### STEP -/

theorem issue_step (cfg : Config) (p : Nat) (s : State) :
    issue cfg p (some s) .step = some ((stepCommand s).1, some (stepCommand s).2) := rfl

theorem stepCommand_of_next {s t : State} (h : step s = .next t) : stepCommand s = (.ok, t) := by
  simp [stepCommand, h]

theorem stepCommand_of_fault {s : State} {f : Fault} (h : step s = .fault f) : stepCommand s = (.fault f, s) := by
  simp [stepCommand, h]

/-- A finished machine has no opcode word at pc, so its step faults there (R29, R81). -/
theorem step_of_pc_eq_progLen {s : State} (h : s.pc = progLen s) :
    step s = .fault (.programBounds (progLen s) (progLen s)) := by
  rw [step_of_fetch_error (fetchPair_of_progLen_le h.ge), h]

/-- Settles O48: by the step's outcome; a finished machine is the fault case, its fetch failing at the opcode index. -/
theorem stepCommandReportsItsOutcome : Obligations.StepCommandReportsItsOutcome := by
  intro cfg p s
  have reports_fault : ∀ f, step s = .fault f → issue cfg p (some s) .step = some (.fault f, some s) := by
    intro f hf
    rw [issue_step, stepCommand_of_fault hf]
  refine ⟨fun t ht => ?_, reports_fault, fun hpc => reports_fault _ (step_of_pc_eq_progLen hpc)⟩
  rw [issue_step, stepCommand_of_next ht]

/-! ### FINISHED -/

theorem issue_finished (cfg : Config) (p : Nat) (s : State) :
    issue cfg p (some s) .finished = some (.truth (finished s), some s) := rfl

theorem finished_eq_decide (s : State) : finished s = decide (s.pc = s.prog.length) := rfl

/-- A jump can leave pc beyond the end of the program, where the machine is not finished (R29, R142). -/
theorem finished_eq_false_of_progLen_lt {s : State} (h : progLen s < s.pc) : finished s = false :=
  decide_eq_false h.ne'

/-- Settles O54: the answer is the comparison of pc with the program length, which fails for a pc beyond it. -/
theorem finishedIsPcAtTheEnd : Obligations.FinishedIsPcAtTheEnd := by
  intro cfg p s
  constructor
  · rw [issue_finished, finished_eq_decide]
  · intro beyond
    rw [issue_finished, finished_eq_false_of_progLen_lt beyond]

end Sys2Proof.Machine
end

section
/-! PROOF. The encoder, the two decoders, the opcode table and the assembly syntax (30_encoding.md sections 1 to 4): each
reads back what another wrote. -/

namespace Sys2Proof

/-! ### Words to instruction and back -/

theorem decodePair_opcode_operandWord (i : Instr) : decodePair i.opcode i.operandWord = i := by
  cases i with
  | adv x => exact congrArg Instr.adv (decodeCombo_word x)
  | bst x => exact congrArg Instr.bst (decodeCombo_word x)
  | out x => exact congrArg Instr.out (decodeCombo_word x)
  | bdv x => exact congrArg Instr.bdv (decodeCombo_word x)
  | cdv x => exact congrArg Instr.cdv (decodeCombo_word x)
  | bxl x => rfl
  | jnz x => rfl
  | bxc x => rfl

/-- Settles O4: the decoder reads the opcode and the operand word the encoder wrote. -/
theorem decodeOfEncode : Obligations.DecodeOfEncode := by
  intro i rest
  change decode (i.opcode :: i.operandWord :: rest) = _
  rw [decode_pair, decodePair_opcode_operandWord]

/-- The decoder drops no bit of the operand word (R65, R66). -/
@[simp] theorem operandWord_decodePair (op x : PWord) : (decodePair op x).operandWord = x := by
  obtain ⟨-, e⟩ | ⟨-, e⟩ | ⟨-, e⟩ | ⟨-, e⟩ | ⟨-, e⟩ | ⟨-, e⟩ | ⟨-, e⟩ | ⟨-, e⟩ := decodePair_cases op x <;>
    simp [e, Instr.operandWord, word_decodeCombo]

theorem encode_decodePair (op x : PWord) : encode (decodePair op x) = [op, x] := by simp [encode]

/-- Settles O5: what decodes is a pair of words before the rest, and the pair's instruction has those words. -/
theorem encodeOfDecode : Obligations.EncodeOfDecode := by
  intro ws i rest h
  obtain ⟨op, x, rfl, rfl⟩ := decode_eq_ok_iff.1 h
  rw [encode_decodePair]
  rfl

/-! ### Raw words -/

theorem decodeRaw_pair {op x : Nat} (hop : op ≤ 7) (hx : x ≤ 7) (rest : List Nat) :
    decodeRaw (op :: x :: rest) = .ok (decodePair (BitVec.ofNat 3 op) (BitVec.ofNat 3 x), rest) := by
  simp [decodeRaw, Nat.not_lt.2 hop, Nat.not_lt.2 hx]

theorem decodeRaw_wide_opcode {op : Nat} (hop : 7 < op) (x : Nat) (rest : List Nat) :
    decodeRaw (op :: x :: rest) = .error (.opcodeOutOfRange op) := by
  simp [decodeRaw, hop]

theorem decodeRaw_wide_operand {op x : Nat} (hop : op ≤ 7) (hx : 7 < x) (rest : List Nat) :
    decodeRaw (op :: x :: rest) = .error (.operandOutOfRange x) := by
  simp [decodeRaw, Nat.not_lt.2 hop, hx]

theorem pword_toNat_le (w : PWord) : w.toNat ≤ 7 := Nat.le_of_lt_succ w.isLt

/-- Settles O6: a 3-bit word is at most 7 and is what its number makes again; a wide word fails its own check. -/
theorem wideDecoderRefusesLargeWords : Obligations.WideDecoderRefusesLargeWords := by
  refine ⟨fun ws => ?_, fun op x rest hop => decodeRaw_wide_opcode hop x rest,
    fun op x rest hop hx => decodeRaw_wide_operand hop hx rest⟩
  match ws with
  | [] => rfl
  | [_] => rfl
  | op :: x :: rest =>
    simp only [List.map_cons, decodeRaw_pair (pword_toNat_le op) (pword_toNat_le x), BitVec.ofNat_toNat,
      BitVec.setWidth_eq, decode_pair]
    rfl

/-! ### The opcode table -/

/-- Settles O1: each word pair decodes to its instruction, and a table number to that of its two fields. -/
theorem wordsDecodeAsTheSpecWritesThem : Obligations.WordsDecodeAsTheSpecWritesThem :=
  ⟨rfl, rfl, rfl, rfl, rfl, rfl, rfl, rfl, by decide, by decide⟩

theorem decodeTableWord_of_lt {pv : Nat} (h : pv < 64) :
    decodeTableWord 6 pv = some (decodePair (pairOpcode pv) (pairOperand pv)) := by
  simp [decodeTableWord, Nat.mod_eq_of_lt h, h, decode_pair]

/-- The one row that covers a pair value has the shared mask, the value's own opcode field as pattern and the mnemonic of
the instruction it decodes to. -/
theorem encodingTable_filter_covers (pv : BitVec 6) : encodingTable.filter (fun q => q.covers pv) =
    [⟨(decodePair (pairOpcode pv.toNat) (pairOperand pv.toNat)).mnemonic, 0b111000#6, pv &&& 0b111000#6⟩] := by
  revert pv; decide

/-- Settles O3: a 6-bit number is two fields, which the decoder reads, and its opcode field selects the row. -/
theorem opcodeTableCoversEveryPairOnce : Obligations.OpcodeTableCoversEveryPairOnce := fun pv =>
  ⟨_, _, decodeTableWord_of_lt pv.isLt, encodingTable_filter_covers pv, rfl⟩

end Sys2Proof

namespace Sys2Proof.Machine

/-! ### Assembly -/

@[simp] theorem digitWord_operandDigit (x : PWord) : digitWord (operandDigit x) = some x := by revert x; decide

/-- A digit is no register's letter. -/
@[simp] theorem comboChar_operandDigit (x : PWord) : comboChar (operandDigit x) = some x := by revert x; decide

theorem assemble_disassemble (i : Instr) : assemble (disassemble i) = some i := by
  cases i <;> simp [assemble, disassemble, Instr.mnemonic, Instr.operandWord, decodeCombo_word]

/-- Where a mnemonic takes a combo operand, the line's operand is read as one. -/
theorem assemble_congr_of_comboChar_eq {m : String} {d d' : Char}
    (hm : m ∈ ["adv", "bst", "out", "bdv", "cdv"]) (h : comboChar d = comboChar d') : assemble ⟨m, d⟩ = assemble ⟨m, d'⟩ := by
  simp only [List.mem_cons, List.not_mem_nil, or_false] at hm
  obtain rfl | rfl | rfl | rfl | rfl := hm <;> simp [assemble, h]

/-- Settles O7: the digit of an operand word reads back, and a letter stands for the same word as its digit. -/
theorem assemblyReadsBack : Obligations.AssemblyReadsBack :=
  ⟨assemble_disassemble, fun _ hm => ⟨assemble_congr_of_comboChar_eq hm (by decide),
    assemble_congr_of_comboChar_eq hm (by decide), assemble_congr_of_comboChar_eq hm (by decide)⟩, by decide⟩

end Sys2Proof.Machine
end

section
/-! PROOF. The invariant of an instance (10_state.md R26, R10, 45_host_commands.md R161): reset and NEW establish it, every
step and every other command keep it, and it bounds pc by R9's width. -/

namespace Sys2Proof.Machine

/-! ### Across a step -/

/-- R26: an advance comes from a pair inside the program, and a jump's literal is at most 7. -/
theorem step_keeps_pcRange {s t : State} (h : step s = .next t) : t.pc ≤ max (progLen t) 7 := by
  obtain ⟨op, x, -, hx, effect⟩ := step_next h
  have inside : s.pc + 1 < progLen s := (memRead_isSome_iff s _).1 ⟨x, hx⟩
  rw [progLen_congr effect.prog]
  by_cases hjnz : ∃ y, decodePair op x = .jnz y
  · obtain ⟨y, hy⟩ := hjnz
    rw [hy] at effect
    have target : y.toNat ≤ 7 := pword_toNat_le y
    rw [effect.pc_of_jnz]
    split <;> omega
  · rw [effect.pc_of_ne_jnz fun y hy => hjnz ⟨y, hy⟩]
    omega

/-- An append is made only where the log has room. -/
theorem Effect.keeps_outFits {s t : State} {i : Instr} (h : Effect s i t)
    (fits : ∀ n, s.cfg.outCapacity = some n → s.out.length ≤ n) :
    ∀ n, t.cfg.outCapacity = some n → t.out.length ≤ n := by
  cases h with
  | out hv hroom => simpa [Nat.succ_le_iff] using (outFull_eq_false_iff s).1 hroom
  | _ => simpa using fits

theorem step_keeps_inv {s t : State} (inv : s.Inv) (h : step s = .next t) : t.Inv := by
  obtain ⟨op, x, -, -, effect⟩ := step_next h
  exact ⟨step_keeps_pcRange h, step_keeps_memory_wf h inv.progFits, effect.keeps_outFits inv.outFits⟩

/-- Settles O40: pc by where the step's pair lies, the log by the room an out needs, the program as it was. -/
theorem everyStepKeepsTheInvariant : Obligations.EveryStepKeepsTheInvariant := fun _ _ => step_keeps_inv

/-! ### Across the commands -/

theorem fresh_inv {cfg : Config} {prog : Memory} (fits : Memory.wf cfg prog = true) (a b c : Word) :
    (State.fresh cfg a b c prog).Inv :=
  ⟨Nat.zero_le _, fits, by simp⟩

/-- Settles O39: the reset state is a fresh instance of the empty program. -/
theorem resetMeetsTheInvariant : Obligations.ResetMeetsTheInvariant := fresh_inv reset_memory_wf _ _ _

theorem newInstance_eq_fresh {cfg : Config} {a b c : Word} {prog : List Nat} {s : State}
    (h : newInstance cfg a b c prog = .ok s) : s = State.fresh cfg a b c (prog.map (BitVec.ofNat 3)) := by
  obtain ⟨-, e⟩ | ⟨-, -, e⟩ | ⟨-, -, e⟩ := newInstance_cases cfg a b c prog <;> simp [e] at h
  exact h.symm

theorem newInstance_inv {cfg : Config} {a b c : Word} {prog : List Nat} {s : State}
    (h : newInstance cfg a b c prog = .ok s) : s.Inv := by
  have fits := newInstance_memory_wf h
  rw [newInstance_eq_fresh h] at fits ⊢
  exact fresh_inv fits a b c

theorem restart_inv {s : State} (inv : s.Inv) : (restart s).Inv := ⟨Nat.zero_le _, inv.progFits, by simp⟩

theorem restartA_inv {s : State} (inv : s.Inv) (v : Word) : (restartA v s).Inv :=
  ⟨Nat.zero_le _, inv.progFits, by simp⟩

theorem runFor_inv {s : State} (inv : s.Inv) (k : Nat) : (runFor k s).2.Inv :=
  runFor_induction (P := fun s t => s.Inv → t.Inv) (fun _ h => h)
    (fun _ _ _ hs hrest h => hrest (step_keeps_inv h hs)) k s inv

/-- All that a command can do to an engine without an instance: NEW makes one, and nothing else does. -/
theorem issue_none_cases {cfg : Config} {p : Nat} {cmd : Command} {r : Response} {e : Engine}
    (h : issue cfg p none cmd = some (r, e)) :
    (∃ a b c q t, cmd = .new a b c q ∧ newInstance cfg a b c q = .ok t ∧ e = some t) ∨ e = none := by
  cases cmd with
  | new a b c q =>
    cases hn : newInstance cfg a b c q with
    | ok t => simp [issue, hn] at h; exact .inl ⟨a, b, c, q, t, rfl, hn, h.2.symm⟩
    | error f => simp [issue, hn] at h; exact .inr h.2.symm
  | _ => simp [issue] at h; exact .inr h.2.symm

/-- The instance of an engine, if there is one, meets the invariant. -/
def Engine.Inv (e : Engine) : Prop := ∀ s, e = some s → s.Inv

theorem Engine.inv_none : Engine.Inv none := fun _ h => nomatch h

theorem Engine.inv_some {s : State} (inv : s.Inv) : Engine.Inv (some s) := fun _ h => Option.some.inj h ▸ inv

theorem issue_keeps_inv {cfg : Config} {p : Nat} {e e' : Engine} {cmd : Command} {r : Response} (inv : Engine.Inv e)
    (h : issue cfg p e cmd = some (r, e')) : Engine.Inv e' := by
  cases e with
  | none =>
    obtain ⟨a, b, c, q, t, -, hn, rfl⟩ | rfl := issue_none_cases h
    · exact Engine.inv_some (newInstance_inv hn)
    · exact Engine.inv_none
  | some s =>
    have old : s.Inv := inv s rfl
    obtain ⟨a, b, c, q, -, ⟨t, hn, rfl, -⟩ | rfl⟩ | ⟨-, rfl⟩ | ⟨v, -, rfl⟩ | ⟨-, t, hs, rfl⟩ | ⟨k, rfl⟩ | rfl :=
      issue_cases h
    · exact Engine.inv_some (newInstance_inv hn)
    · exact inv
    · exact Engine.inv_some (restart_inv old)
    · exact Engine.inv_some (restartA_inv old v)
    · exact Engine.inv_some (step_keeps_inv old hs)
    · exact Engine.inv_some (runFor_inv old k)
    · exact inv

/-- The induction over a sequence of commands, packaged: what every one of them keeps, the sequence keeps. -/
theorem issueAll_induction {P : Engine → Prop} {cfg : Config} {p : Nat} {cmds : List Command}
    (keep : ∀ cmd ∈ cmds, ∀ e r e', P e → issue cfg p e cmd = some (r, e') → P e') {e e' : Engine} (start : P e)
    (h : issueAll cfg p e cmds = some e') : P e' := by
  induction cmds generalizing e with
  | nil => obtain rfl : e = e' := by simpa [issueAll] using h
           exact start
  | cons cmd rest ih =>
    rw [issueAll] at h
    cases hc : issue cfg p e cmd with
    | none => simp [hc] at h
    | some q =>
      obtain ⟨r, mid⟩ := q
      rw [hc] at h
      exact ih (fun cmd' hmem => keep cmd' (List.mem_cons_of_mem _ hmem))
        (keep cmd List.mem_cons_self e r mid start hc) h

/-- Settles O41: by induction over the commands, each by the cases of what it can do to the engine. -/
theorem everyCommandSequenceKeepsTheInvariant : Obligations.EveryCommandSequenceKeepsTheInvariant := by
  intro cfg p e cmds t inv h
  have after : Engine.Inv (some t) := issueAll_induction (fun _ _ _ _ _ => issue_keeps_inv) inv h
  exact after t rfl

/-! ### The width of pc -/

/-- Settles O42: the invariant bounds pc by the longest program or 7, whichever is more, which R9's width holds. -/
theorem pcFitsInItsBits : Obligations.PcFitsInItsBits := by
  intro s m inv hm
  have short : progLen s ≤ m := (wf_iff s.cfg s.prog).1 inv.progFits m hm
  calc s.pc < max m 7 + 1 := Nat.lt_succ_of_le (inv.pcRange.trans (max_le_max_right 7 short))
    _ ≤ 2 ^ Config.minPcBits m := Nat.le_pow_clog Nat.one_lt_two _

end Sys2Proof.Machine
end

section
/-! PROOF. Operand resolution (30_encoding.md section 2) and the results of the instructions with a combo operand (41_shift.md,
42_bitwise.md, 44_output.md): each as one record update where the operand has a value. -/

namespace Sys2Proof

/-- The operand table of R65, row by row. -/
theorem decodeCombo_cases (k : PWord) :
    (k.toNat ≤ 3 ∧ decodeCombo k = .lit (k.setWidth 2)) ∨ (k = 4#3 ∧ decodeCombo k = .reg .a) ∨
    (k = 5#3 ∧ decodeCombo k = .reg .b) ∨ (k = 6#3 ∧ decodeCombo k = .reg .c) ∨
    (k = 7#3 ∧ decodeCombo k = .reserved) := by
  revert k; decide

/-- The literal row of R65: an operand word up to 3 loses nothing in the two bits of the literal. -/
theorem decodeCombo_of_toNat_le {k : PWord} (h : k.toNat ≤ 3) : decodeCombo k = .lit (BitVec.ofNat 2 k.toNat) := by
  revert k; decide

namespace Machine

/-! ### Operands -/

theorem literalValue_toNat (x : PWord) : (literalValue x).toNat = x.toNat := zext64_toNat x (by decide)

theorem comboValue_of_toNat_le {k : PWord} (h : k.toNat ≤ 3) (s : State) :
    comboValue (decodeCombo k) s = some (BitVec.ofNat 64 k.toNat) := by
  rw [decodeCombo_of_toNat_le h]
  change some (zext64 _) = _
  congr 1
  apply BitVec.eq_of_toNat_eq
  rw [zext64_toNat _ (by decide)]
  simp only [BitVec.toNat_ofNat]
  omega

/-- Settles O8: a literal is zero-extended, and the combo table is read row by row. -/
theorem operandsResolveByTheTable : Obligations.OperandsResolveByTheTable :=
  ⟨fun x => ⟨literalValue_toNat x, literalValue_toNat x ▸ pword_toNat_le x⟩,
    fun s => ⟨fun _ hk => comboValue_of_toNat_le hk s, rfl, rfl, rfl, withCombo_reserved s⟩⟩

/-! ### The shifts -/

section Shifts

variable {s : State} {x : Combo} {v : Word}

theorem shiftAInto_of_value (h : comboValue x s = some v) (dst : Reg) :
    shiftAInto dst x s = .next (advance (writeReg dst (s.a >>> v.toNat) s)) := by
  rw [shiftAInto, withCombo_value h, shr64_eq]

theorem exec_adv_of_value (h : comboValue x s = some v) :
    exec (.adv x) s = .next { s with a := s.a >>> v.toNat, pc := s.pc + 2 } := shiftAInto_of_value h .a

theorem exec_bdv_of_value (h : comboValue x s = some v) :
    exec (.bdv x) s = .next { s with b := s.a >>> v.toNat, pc := s.pc + 2 } := shiftAInto_of_value h .b

theorem exec_cdv_of_value (h : comboValue x s = some v) :
    exec (.cdv x) s = .next { s with c := s.a >>> v.toNat, pc := s.pc + 2 } := shiftAInto_of_value h .c

end Shifts

/-- Settles O9: the shift into A, and opcode word 0 is adv's. -/
theorem advShiftsAIntoA : Obligations.AdvShiftsAIntoA := ⟨fun _ => rfl, fun _ _ _ => exec_adv_of_value⟩

/-- Settles O10: the shift into B, and opcode word 6 is bdv's. -/
theorem bdvShiftsAIntoB : Obligations.BdvShiftsAIntoB := ⟨fun _ => rfl, fun _ _ _ => exec_bdv_of_value⟩

/-- Settles O11: the shift into C, and opcode word 7 is cdv's. -/
theorem cdvShiftsAIntoC : Obligations.CdvShiftsAIntoC := ⟨fun _ => rfl, fun _ _ _ => exec_cdv_of_value⟩

theorem toNat_shift (a v : Word) : (a >>> v.toNat).toNat = a.toNat / 2 ^ v.toNat := by
  rw [BitVec.toNat_ushiftRight, Nat.shiftRight_eq_div_pow]

/-- Settles O17: a logical right shift of a number is its floor division by the power of two. -/
theorem shiftsDivideByAPowerOfTwo : Obligations.ShiftsDivideByAPowerOfTwo := fun s _ v h =>
  ⟨⟨_, exec_adv_of_value h, toNat_shift s.a v⟩, ⟨_, exec_bdv_of_value h, toNat_shift s.a v⟩,
    ⟨_, exec_cdv_of_value h, toNat_shift s.a v⟩⟩

theorem shift_self (a : Word) : a >>> a.toNat = 0#64 := by
  apply BitVec.eq_of_toNat_eq
  rw [toNat_shift, Nat.div_eq_of_lt Nat.lt_two_pow_self]
  rfl

theorem comboValue_reg (r : Reg) (s : State) : comboValue (.reg r) s = some (readReg r s) := rfl

/-- Settles O18: a number is below the power of two that it is the exponent of. -/
theorem shiftingAByItselfGivesZero : Obligations.ShiftingAByItselfGivesZero := by
  intro s
  have hv : comboValue (.reg .a) s = some s.a := comboValue_reg .a s
  rw [exec_adv_of_value hv, exec_bdv_of_value hv, exec_cdv_of_value hv, shift_self]
  exact ⟨rfl, rfl, rfl⟩

/-! ### bst -/

theorem zext64_low3 (v : Word) : zext64 (low3 v) = BitVec.ofNat 64 (v.toNat % 8) := by
  apply BitVec.eq_of_toNat_eq
  rw [zext64_toNat _ (by decide), low3_toNat, BitVec.toNat_ofNat]
  omega

theorem exec_bst_of_value {s : State} {x : Combo} {v : Word} (h : comboValue x s = some v) :
    exec (.bst x) s = .next { s with b := BitVec.ofNat 64 (v.toNat % 8), pc := s.pc + 2 } := by
  rw [← zext64_low3]
  exact withCombo_value h _

/-- Settles O13: the low three bits, zero-extended, are the number mod 8; opcode word 2 is bst's. -/
theorem bstStoresLowBitsInB : Obligations.BstStoresLowBitsInB := ⟨fun _ => rfl, fun _ _ _ => exec_bst_of_value⟩

/-- Settles O19: every one of the four forms has the old register as its operand's value. -/
theorem operandsAreReadBeforeTheWrite : Obligations.OperandsAreReadBeforeTheWrite := fun s =>
  ⟨exec_adv_of_value (comboValue_reg .a s), exec_bdv_of_value (comboValue_reg .b s),
    exec_cdv_of_value (comboValue_reg .c s), exec_bst_of_value (comboValue_reg .b s)⟩

/-! ### out -/

theorem low3_eq_ofNat (v : Word) : low3 v = BitVec.ofNat 3 (v.toNat % 8) := by
  apply BitVec.eq_of_toNat_eq
  rw [low3_toNat, BitVec.toNat_ofNat, Nat.mod_mod]

theorem exec_out_of_value {s : State} {x : Combo} {v : Word} (h : comboValue x s = some v) :
    exec (.out x) s = emit (low3 v) s := withCombo_value h _

theorem emit_of_room {s : State} (room : outFull s = false) (v : PWord) :
    emit v s = .next (advance (outAppend v s)) := by simp [emit, room]

theorem emit_of_full {s : State} (full : outFull s = true) (v : PWord) :
    emit v s = .fault (.outputOverflow s.pc) := by simp [emit, full, raiseFault]

theorem Effect.out_eq {s t : State} {i : Instr} (h : Effect s i t) (hi : ¬ ∃ x, i = .out x) : t.out = s.out := by
  cases h with
  | out => exact absurd ⟨_, rfl⟩ hi
  | _ => simp

/-- Settles O16: with room, out appends the low three bits; no other instruction's effect writes the log. -/
theorem outAppendsLowBits : Obligations.OutAppendsLowBits := by
  refine ⟨fun _ => rfl, fun s x v hv room => ?_, fun s t i hs hne => ?_⟩
  · rw [exec_out_of_value hv, emit_of_room ((outFull_eq_false_iff s).2 room), low3_eq_ofNat]
    rfl
  · exact not_not.1 fun hi => hne ((exec_next hs).out_eq hi)

/-! ### bxl -/

theorem exec_bxl_b {s t : State} {x : PWord} (h : exec (.bxl x) s = .next t) : t.b = s.b ^^^ literalValue x := by
  cases exec_next h
  rfl

/-- A literal has no bit beyond the low three. -/
theorem toNat_xor_literalValue_div (b : Word) (x : PWord) : (b ^^^ literalValue x).toNat / 8 = b.toNat / 8 := by
  have low : x.toNat >>> 3 = 0 := Nat.shiftRight_eq_zero _ _ x.isLt
  have xor_shift := Nat.shiftRight_xor_distrib (a := b.toNat) (b := x.toNat) (i := 3)
  rw [low, Nat.xor_zero] at xor_shift
  rw [BitVec.toNat_xor, literalValue_toNat]
  simpa [Nat.shiftRight_eq_div_pow] using xor_shift

/-- Settles O20: XOR by one literal twice cancels, and the literal reaches three bits only. -/
theorem bxlTwiceRestoresB : Obligations.BxlTwiceRestoresB := by
  intro s t u x hst htu
  rw [exec_bxl_b htu, exec_bxl_b hst, BitVec.xor_assoc, BitVec.xor_self, BitVec.xor_zero]
  exact ⟨rfl, toNat_xor_literalValue_div s.b x⟩

end Machine

end Sys2Proof
end

section
/-! PROOF. The step and its faults (40_execution_cycle.md R80, 60_exceptions.md R200, R205): which instruction it runs, when it
commits, and what else it can answer. -/

namespace Sys2Proof.Machine

/-! ### Which instruction a step runs -/

/-- Settles O25: the words that decode stand at pc and after it, where the fetch reads them. -/
theorem stepRunsTheDecodedInstruction : Obligations.StepRunsTheDecodedInstruction := by
  intro s i rest h
  obtain ⟨op, x, hdrop, rfl⟩ := decode_eq_ok_iff.1 h
  have word : ∀ j, memRead s (s.pc + j) = (op :: x :: rest)[j]? := fun j => by
    rw [← hdrop, List.getElem?_drop]
    rfl
  exact step_of_words (word 0) (word 1)

/-- Where the number of bits holds every pair value, the pair placed at pc is the instruction's own (R62). -/
theorem withFetchWord_prog (s : State) (i : Instr) {nbits : Nat} (h : 64 ≤ 2 ^ nbits) :
    (s.withFetchWord nbits i.pairValue).prog = placePair s.pc i.opcode i.operandWord s.prog := by
  obtain ⟨hlt, hop, hx, -⟩ := Laws.PairValueInOwnRow.fields_of_pair i.opcode i.operandWord
  have hmod : i.pairValue % 2 ^ nbits = i.opcode.toNat * 8 + i.operandWord.toNat := Nat.mod_eq_of_lt (hlt.trans_le h)
  rw [State.withFetchWord, hmod, hop, hx]

theorem step_withFetchWord (s : State) (i : Instr) {nbits : Nat} (h : 64 ≤ 2 ^ nbits) :
    step (s.withFetchWord nbits i.pairValue) = exec i (s.withFetchWord nbits i.pairValue) := by
  obtain ⟨read_op, read_x⟩ := placePair_reads s.pc i.opcode i.operandWord s.prog
  rw [← withFetchWord_prog s i h] at read_op read_x
  rw [step_of_words read_op read_x, decodePair_opcode_operandWord]

/-- Settles O26: six bits hold every pair value, and so do eight. -/
theorem placedInstructionRunsNext : Obligations.PlacedInstructionRunsNext := fun s i =>
  ⟨step_withFetchWord s i (by decide), step_withFetchWord s i (by decide)⟩

/-! ### When an instruction commits -/

theorem canCommit_out (x : Combo) (s : State) : canCommit (.out x) s = (x.wellFormed && !outFull s) := rfl

theorem wellFormed_of_canCommit {i : Instr} {s : State} (h : canCommit i s = true) : i.wellFormed = true :=
  (Bool.and_eq_true_iff.1 h).1

theorem exec_next_iff (i : Instr) (s : State) : (∃ t, exec i s = .next t) ↔ canCommit i s = true := by
  obtain ⟨hc, ht⟩ | ⟨hw, hf⟩ | ⟨-, ⟨x, rfl⟩, hfull, hf⟩ := exec_cases i s
  · exact iff_of_true ht hc
  · exact iff_of_false (by simp [hf]) fun hc => by simp [wellFormed_of_canCommit hc] at hw
  · exact iff_of_false (by simp [hf]) (by simp [canCommit_out, hfull])

theorem exec_of_not_wellFormed {i : Instr} (h : i.wellFormed = false) (s : State) :
    exec i s = .fault (.invalidOperand s.pc 7#3) := by
  obtain ⟨hc, -⟩ | ⟨-, hf⟩ | ⟨hw, -⟩ := exec_cases i s
  · simp [wellFormed_of_canCommit hc] at h
  · exact hf
  · simp [hw] at h

/-- Settles O21: a combo operand word 7 makes the instruction one of the reserved encodings. -/
theorem reservedOperandFaults : Obligations.ReservedOperandFaults := fun s =>
  ⟨exec_of_not_wellFormed rfl s, exec_of_not_wellFormed rfl s, exec_of_not_wellFormed rfl s,
    exec_of_not_wellFormed rfl s, exec_of_not_wellFormed rfl s⟩

/-! ### All that a step can answer -/

/-- A step fails at the opcode index, or at the operand index, or runs the pair at pc. -/
theorem step_cases (s : State) :
    (progLen s ≤ s.pc ∧ step s = .fault (.programBounds s.pc s.pc)) ∨
    (s.pc + 1 = progLen s ∧ step s = .fault (.programBounds s.pc (s.pc + 1))) ∨
    ∃ op x, memRead s s.pc = some op ∧ memRead s (s.pc + 1) = some x ∧ step s = exec (decodePair op x) s := by
  obtain ⟨h, e⟩ | ⟨h, h', e⟩ | ⟨op, x, hop, hx, e⟩ := fetchPair_cases s
  · exact .inl ⟨h, step_of_fetch_error e⟩
  · exact .inr (.inl ⟨h'.antisymm' h, step_of_fetch_error e⟩)
  · exact .inr (.inr ⟨op, x, hop, hx, step_of_fetch e⟩)

/-- Settles O28: without both words the fetch faults, and with them the pair's instruction commits or not. -/
theorem stepCommitsExactlyWhen : Obligations.StepCommitsExactlyWhen := by
  intro s
  constructor
  · rintro ⟨t, ht⟩
    obtain ⟨-, e⟩ | ⟨-, e⟩ | ⟨op, x, hop, hx, e⟩ := step_cases s
    · simp [e] at ht
    · simp [e] at ht
    · exact ⟨op, x, hop, hx, (exec_next_iff _ s).1 ⟨t, e ▸ ht⟩⟩
  · rintro ⟨op, x, hop, hx, hc⟩
    rw [step_of_words hop hx]
    exact (exec_next_iff _ s).2 hc

/-- An answer that is no next state: one of the three faults of R200, each where its cause stands. -/
theorem step_next_or_fault (s : State) :
    (∃ t, step s = .next t) ∨
    (progLen s ≤ s.pc ∧ step s = .fault (.programBounds s.pc s.pc)) ∨
    (s.pc + 1 = progLen s ∧ step s = .fault (.programBounds s.pc (s.pc + 1))) ∨
    (s.pc + 1 < progLen s ∧ step s = .fault (.invalidOperand s.pc 7#3)) ∨
    (s.pc + 1 < progLen s ∧ outFull s = true ∧ step s = .fault (.outputOverflow s.pc)) := by
  obtain h | h | ⟨op, x, -, hx, e⟩ := step_cases s
  · exact .inr (.inl h)
  · exact .inr (.inr (.inl h))
  · have inside := (memRead_isSome_iff s _).1 ⟨x, hx⟩
    rw [e]
    obtain ⟨-, ht⟩ | ⟨-, hf⟩ | ⟨-, -, hfull, hf⟩ := exec_cases (decodePair op x) s
    · exact .inl ht
    · exact .inr (.inr (.inr (.inl ⟨inside, hf⟩)))
    · exact .inr (.inr (.inr (.inr ⟨inside, hfull, hf⟩)))

theorem step_ne_refused (s : State) (r : Refusal) : step s ≠ .refused r := by
  obtain ⟨t, e⟩ | ⟨-, e⟩ | ⟨-, e⟩ | ⟨-, e⟩ | ⟨-, -, e⟩ := step_next_or_fault s <;> simp [e]

/-- Settles O30: the code of each fault a step can raise is fixed by its constructor. -/
theorem everyFaultHasItsCodeAndRecord : Obligations.EveryFaultHasItsCodeAndRecord := by
  refine ⟨fun _ _ => rfl, fun s => ⟨step_ne_refused s, fun f hf => ?_⟩⟩
  obtain ⟨t, e⟩ | ⟨h, e⟩ | ⟨h, e⟩ | ⟨h, e⟩ | ⟨h, -, e⟩ := step_next_or_fault s <;> rw [e] at hf <;> cases hf
  · exact .inl ⟨rfl, .inl ⟨h, rfl⟩⟩
  · exact .inl ⟨rfl, .inr ⟨h, rfl⟩⟩
  · exact .inr (.inl ⟨rfl, h, rfl⟩)
  · exact .inr (.inr ⟨rfl, h, rfl⟩)

/-! ### The full log -/

theorem exec_out_of_full {s : State} {x : Combo} {v : Word} (hv : comboValue x s = some v) (full : outFull s = true) :
    exec (.out x) s = .fault (.outputOverflow s.pc) := by
  rw [exec_out_of_value hv, emit_of_full full]

/-- Settles O22: an out with a value only emits, which faults on a full log; a log without a capacity is never full. -/
theorem outOnAFullLogOverflows : Obligations.OutOnAFullLogOverflows := by
  refine ⟨fun s x v n hv hcap hlen => exec_out_of_full hv ((outFull_iff s).2 ⟨n, hcap, hlen⟩), fun s p hcap => ?_⟩
  have room : outFull s = false := (outFull_eq_false_iff s).2 (by simp [hcap])
  obtain ⟨t, e⟩ | ⟨-, e⟩ | ⟨-, e⟩ | ⟨-, e⟩ | ⟨-, full, -⟩ := step_next_or_fault s
  · simp [e]
  · simp [e]
  · simp [e]
  · simp [e]
  · simp [room] at full

/-- The five opcodes of a combo operand, and the reserved word: R69's encodings. -/
theorem decodePair_reserved {op : PWord} (h : op ∈ [0#3, 2#3, 5#3, 6#3, 7#3]) :
    (decodePair op 7#3).wellFormed = false := by
  revert op; decide

/-- bxl, jnz and bxc check nothing (R205). -/
theorem canCommit_of_no_combo {op : PWord} (h : op ∈ [1#3, 3#3, 4#3]) (x : PWord) (s : State) :
    canCommit (decodePair op x) s = true := by
  simp only [List.mem_cons, List.not_mem_nil, or_false] at h
  obtain rfl | rfl | rfl := h <;> rfl

/-- Settles O29: the operand's check decides first, then out's, and the three other opcodes have none. -/
theorem faultsAfterTheFetch : Obligations.FaultsAfterTheFetch := by
  intro s op x hop hx
  rw [step_of_words hop hx]
  refine ⟨?_, ?_, fun h => (exec_next_iff _ s).2 (canCommit_of_no_combo h x s)⟩
  · rintro h rfl
    exact exec_of_not_wellFormed (decodePair_reserved h) s
  · rintro n rfl hne hcap hlen
    obtain ⟨v, hv⟩ := (exists_comboValue_iff (decodeCombo x) s).2 (by simp [decodeCombo_wellFormed, hne])
    exact exec_out_of_full hv ((outFull_iff s).2 ⟨n, hcap, hlen⟩)

/-! ### After a fault, and the fault after a jump -/

/-- Settles O32: a fault keeps the state, and the same state steps to the same fault. -/
theorem faultChangesNothingAndRepeats : Obligations.FaultChangesNothingAndRepeats := by
  intro s t f h
  obtain ⟨hf, rfl⟩ := stepCommand_eq_fault h
  exact ⟨rfl, stepCommand_of_fault hf⟩

/-- Settles O33: the jump only writes pc, so its target meets the length at the next fetch. -/
theorem badJumpTargetFaultsAtTheNextStep : Obligations.BadJumpTargetFaultsAtTheNextStep := fun s x ha =>
  ⟨jumpTo x s, exec_jnz_of_ne_zero ha x, rfl, fun at_end => (finished_iff (jumpTo x s)).2 at_end,
    fun beyond => ⟨finished_eq_false_of_progLen_lt (s := jumpTo x s) beyond,
      step_of_fetch_error (fetchPair_of_progLen_le (s := jumpTo x s) beyond.le)⟩,
    fun last => step_of_fetch_error (fetchPair_of_last_word (s := jumpTo x s) last)⟩

end Sys2Proof.Machine
end

section
/-! PROOF. Frames (10_state.md R22): which opcodes write each register, and what every instruction leaves. -/

namespace Sys2Proof.Machine

/-! ### Who writes a register -/

section Writers

variable {s t : State} {i : Instr}

theorem Effect.a_eq (h : Effect s i t) (hi : i.opcode ≠ 0#3) : t.a = s.a := by
  cases h with
  | adv => exact absurd rfl hi
  | _ => simp

theorem Effect.c_eq (h : Effect s i t) (hi : i.opcode ≠ 7#3) : t.c = s.c := by
  cases h with
  | cdv => exact absurd rfl hi
  | _ => simp

theorem Effect.b_eq (h : Effect s i t) (hi : i.opcode ∉ [1#3, 2#3, 4#3, 6#3]) : t.b = s.b := by
  cases h with
  | bxl => exact absurd (by simp [Instr.opcode]) hi
  | bst => exact absurd (by simp [Instr.opcode]) hi
  | bxc => exact absurd (by simp [Instr.opcode]) hi
  | bdv => exact absurd (by simp [Instr.opcode]) hi
  | _ => simp

theorem Effect.memRead_eq (h : Effect s i t) (j : Nat) : memRead t j = memRead s j := memRead_congr h.prog j

end Writers

/-- The inversion lemma of the step by its opcode word, which is the instruction's own. -/
theorem step_next_opcode {s t : State} (h : step s = .next t) :
    ∃ i : Instr, memRead s s.pc = some i.opcode ∧ Effect s i t := by
  obtain ⟨op, x, hop, -, effect⟩ := step_next h
  exact ⟨decodePair op x, by rw [opcode_decodePair, hop], effect⟩

/-- Settles O34: an effect that changes a register belongs to an opcode that writes it, and that opcode stands at pc. -/
theorem onlyItsOwnInstructionsWriteARegister : Obligations.OnlyItsOwnInstructionsWriteARegister := by
  intro s t h
  obtain ⟨i, hop, effect⟩ := step_next_opcode h
  refine ⟨fun hne => ?_, fun hne => ?_, fun hne => ⟨i.opcode, hop, ?_⟩⟩
  · rw [hop, not_imp_comm.1 effect.a_eq hne]
  · rw [hop, not_imp_comm.1 effect.c_eq hne]
  · exact not_imp_comm.1 effect.b_eq hne

/-! ### What each instruction leaves -/

/-- Settles O23: by the opcode of each form; only out's effect writes the log, and none writes the rest. -/
theorem registerInstructionsFrame : Obligations.RegisterInstructionsFrame := by
  intro s t i h
  have effect := exec_next h
  refine ⟨?_, ?_, ?_, fun _ hout => ⟨effect.out_eq hout, effect.sameInstance, effect.memRead_eq⟩⟩
  · rintro ⟨x, rfl⟩
    exact ⟨effect.b_eq (by simp [Instr.opcode]), effect.c_eq (by simp [Instr.opcode])⟩
  · rintro (⟨x, rfl⟩ | ⟨x, rfl⟩ | ⟨x, rfl⟩ | ⟨x, rfl⟩) <;>
      exact ⟨effect.a_eq (by simp [Instr.opcode]), effect.c_eq (by simp [Instr.opcode])⟩
  · rintro ⟨x, rfl⟩
    exact ⟨effect.a_eq (by simp [Instr.opcode]), effect.b_eq (by simp [Instr.opcode])⟩

theorem Effect.out_of_out {s t : State} {x : Combo} (h : Effect s (.out x) t) : ∃ w, t.out = s.out ++ [w] := by
  cases h
  exact ⟨_, rfl⟩

/-- Settles O24: neither opcode writes a register, and out's one append leaves the entries before it. -/
theorem jnzAndOutFrame : Obligations.JnzAndOutFrame := by
  intro s t i h hi
  have effect := exec_next h
  have registers : t.a = s.a ∧ t.b = s.b ∧ t.c = s.c := by
    obtain ⟨x, rfl⟩ | ⟨x, rfl⟩ := hi <;> exact
      ⟨effect.a_eq (by simp [Instr.opcode]), effect.b_eq (by simp [Instr.opcode]), effect.c_eq (by simp [Instr.opcode])⟩
  obtain ⟨ha, hb, hc⟩ := registers
  refine ⟨ha, hb, hc, effect.sameInstance, effect.memRead_eq, ?_, ?_⟩
  · rintro ⟨x, rfl⟩
    exact effect.out_eq (by simp)
  · rintro ⟨x, rfl⟩
    obtain ⟨w, hw⟩ := effect.out_of_out
    rw [hw]
    exact ⟨List.length_append, fun j hj => List.getElem?_append_left hj⟩

end Sys2Proof.Machine
end

section
/-! PROOF. The machine's step against the algorithm over numbers (40_execution_cycle.md R80, R89, R205): the fetch, the
operand and each instruction's effect abstract to what the algorithm computes. -/

namespace Sys2Proof.Machine.Reference

/-! ### Program words, operands and values -/

theorem abstr_pc (s : State) : (abstr s).pc = s.pc := rfl

theorem abstr_out_length (s : State) : (abstr s).out.length = s.out.length := List.length_map _

theorem abstr_P_length (s : State) : (abstr s).P.length = progLen s := List.length_map _

theorem abstr_P_getD {s : State} {i : Nat} {w : PWord} (h : memRead s i = some w) : (abstr s).P.getD i 0 = w.toNat := by
  rw [memRead] at h
  simp [abstr, h]

theorem shr_toNat (v n : Word) : shr v.toNat n.toNat = (shr64 v n).toNat := by
  by_cases h : n.toNat < 64
  · simp [shr, h, shr64_of_lt h, Nat.shiftRight_eq_div_pow]
  · simp [shr, h, shr64_of_ge (Nat.not_lt.1 h)]

/-- The operand table of R65, read by the machine from the decoded operand and by the algorithm from its word. -/
theorem combo_toNat {s : State} {x : PWord} {v : Word} (h : comboValue (decodeCombo x) s = some v) :
    combo x.toNat (abstr s) = v.toNat := by
  obtain ⟨hx, -⟩ | ⟨rfl, e⟩ | ⟨rfl, e⟩ | ⟨rfl, e⟩ | ⟨rfl, e⟩ := decodeCombo_cases x
  · obtain rfl := Option.some.inj ((comboValue_of_toNat_le hx s).symm.trans h)
    have literal : combo x.toNat (abstr s) = x.toNat := by
      rw [combo, if_neg (by omega), if_neg (by omega), if_neg (by omega)]
    rw [literal, BitVec.toNat_ofNat]
    omega
  · obtain rfl := Option.some.inj h
    rfl
  · obtain rfl := Option.some.inj h
    rfl
  · obtain rfl := Option.some.inj h
    rfl
  · exact nomatch h

theorem decodeCombo_eq_reserved_iff (x : PWord) : decodeCombo x = .reserved ↔ x = 7#3 := by revert x; decide

/-! ### The algorithm, from the fetch on -/

/-- Steps 4 and 5 of the algorithm: what the effect emits is appended if the log has room (R204). -/
def commit (cap : Option Nat) (s : RefState) : RefState × Option Nat → RefOutcome
  | (n, none) => .ok n
  | (n, some e) =>
    match cap with
    | none => .ok { n with out := s.out ++ [e] }
    | some k => if k ≤ s.out.length then .fault (.outputOverflow s.pc) else .ok { n with out := s.out ++ [e] }

/-- What the algorithm answers to a pair of words that are both present: the reserved operand's fault, or the commit of
the effect. -/
def afterFetch (cap : Option Nat) (op x : PWord) (s : RefState) : RefOutcome :=
  if kind op.toNat = .combo ∧ x = 7#3 then .fault (.invalidOperand s.pc 7#3)
  else commit cap s (execute op.toNat (operand op.toNat x.toNat s) s)

theorem STEP_of_progLen_le {s : State} (h : progLen s ≤ s.pc) (cap : Option Nat) :
    STEP cap (abstr s) = .fault (.programBounds s.pc s.pc) := by
  rw [STEP, abstr_P_length, abstr_pc, if_pos h]

theorem STEP_of_last_word {s : State} (h : s.pc + 1 = progLen s) (cap : Option Nat) :
    STEP cap (abstr s) = .fault (.programBounds s.pc (s.pc + 1)) := by
  rw [STEP, abstr_P_length, abstr_pc, if_neg (by omega), if_pos h.ge]

theorem STEP_of_words {s : State} {op x : PWord} (hop : memRead s s.pc = some op)
    (hx : memRead s (s.pc + 1) = some x) (cap : Option Nat) :
    STEP cap (abstr s) = afterFetch cap op x (abstr s) := by
  have inside : s.pc + 1 < progLen s := (memRead_isSome_iff s _).1 ⟨x, hx⟩
  have hx7 : x.toNat = 7 ↔ x = 7#3 := BitVec.toNat_inj (y := 7#3)
  rw [STEP, abstr_P_length, abstr_pc, if_neg (by omega), if_neg (by omega), abstr_P_getD hop, abstr_P_getD hx]
  simp only [Nat.not_lt.2 (pword_toNat_le op), if_false, hx7, afterFetch, abstr_pc]
  rfl

theorem afterFetch_of_no_combo {op : PWord} (h : kind op.toNat ≠ .combo) (cap : Option Nat) (x : PWord) (s : RefState) :
    afterFetch cap op x s = commit cap s (execute op.toNat (operand op.toNat x.toNat s) s) :=
  if_neg fun hc => h hc.1

/-- Resolving a combo operand refines the algorithm's check and its operand value, if going on refines the commit. -/
theorem withCombo_refines {s : State} {op : PWord} (hkind : kind op.toNat = .combo) (cap : Option Nat) (x : PWord)
    {go : Word → Host.Outcome State Fault Refusal}
    (hgo : ∀ v, abstrOutcome (go v) = some (commit cap (abstr s) (execute op.toNat v.toNat (abstr s)))) :
    abstrOutcome (withCombo (decodeCombo x) s go) = some (afterFetch cap op x (abstr s)) := by
  obtain ⟨v, hv, e⟩ | ⟨hx, e⟩ := withCombo_cases (decodeCombo x) s go
  · have hne : x ≠ 7#3 := by
      rintro rfl
      exact nomatch hv
    rw [e, hgo, afterFetch, if_neg fun hc => hne hc.2, operand, hkind, combo_toNat hv]
  · rw [e, afterFetch, if_pos ⟨hkind, (decodeCombo_eq_reserved_iff x).1 hx⟩]
    rfl

/-! ### The effects -/

theorem emit_refines (v : Word) (s : State) :
    abstrOutcome (emit (low3 v) s) = some (commit s.cfg.outCapacity (abstr s) (execute 5 v.toNat (abstr s))) := by
  have effect : execute 5 v.toNat (abstr s) = (abstr (advance s), some (v.toNat % 8)) := rfl
  have appended : abstr (advance (outAppend (low3 v) s)) =
      { abstr (advance s) with out := (abstr s).out ++ [v.toNat % 8] } := by simp [abstr, low3_toNat]
  rw [effect]
  cases hcap : s.cfg.outCapacity with
  | none =>
    rw [emit_of_room ((outFull_eq_false_iff s).2 (by simp [hcap]))]
    simp only [abstrOutcome, appended, commit]
  | some n =>
    by_cases hn : n ≤ s.out.length
    · rw [emit_of_full ((outFull_iff s).2 ⟨n, hcap, hn⟩), commit, abstr_out_length, if_pos hn]
      rfl
    · have room : outFull s = false := (outFull_eq_false_iff s).2 fun m hm => by
        obtain rfl : n = m := Option.some.inj (hcap.symm.trans hm)
        exact Nat.not_le.1 hn
      rw [emit_of_room room, abstrOutcome, appended, commit, abstr_out_length, if_neg hn]

theorem execute_adv (v : Word) (s : State) :
    execute 0 v.toNat (abstr s) = (abstr (advance (writeReg .a (shr64 s.a v) s)), none) := by
  simp [execute, abstr, shr_toNat]

theorem execute_bxl (x : PWord) (s : State) :
    execute 1 x.toNat (abstr s) = (abstr (advance (writeReg .b (s.b ^^^ literalValue x) s)), none) := by
  simp [execute, abstr, literalValue_toNat]

theorem execute_bst (v : Word) (s : State) :
    execute 2 v.toNat (abstr s) = (abstr (advance (writeReg .b (zext64 (low3 v)) s)), none) := by
  simp [execute, abstr, zext64_toNat, low3_toNat]

theorem execute_jnz (x : PWord) (s : State) :
    execute 3 x.toNat (abstr s) = (abstr (if jumpTaken s then jumpTo x s else advance s), none) := by
  by_cases ha : s.a = 0#64
  · simp [execute, abstr, jumpTaken, ha]
  · have hn : s.a.toNat ≠ 0 := fun h => ha (BitVec.eq_of_toNat_eq h)
    simp [execute, abstr, jumpTaken, ha, hn]

theorem execute_bxc (v : Nat) (s : State) :
    execute 4 v (abstr s) = (abstr (advance (writeReg .b (s.b ^^^ s.c) s)), none) := by
  simp [execute, abstr]

theorem execute_bdv (v : Word) (s : State) :
    execute 6 v.toNat (abstr s) = (abstr (advance (writeReg .b (shr64 s.a v) s)), none) := by
  simp [execute, abstr, shr_toNat]

theorem execute_cdv (v : Word) (s : State) :
    execute 7 v.toNat (abstr s) = (abstr (advance (writeReg .c (shr64 s.a v) s)), none) := by
  simp [execute, abstr, shr_toNat]

/-- An effect that emits nothing commits as it is. -/
theorem abstrOutcome_next {s t : State} {n : RefState × Option Nat} (h : n = (abstr t, none)) (cap : Option Nat) :
    abstrOutcome (.next t) = some (commit cap (abstr s) n) := by
  rw [h]
  rfl

/-- Every instruction refines the algorithm after the fetch of its two words. -/
theorem exec_refines (op x : PWord) (s : State) :
    abstrOutcome (exec (decodePair op x) s) = some (afterFetch s.cfg.outCapacity op x (abstr s)) := by
  obtain ⟨rfl, e⟩ | ⟨rfl, e⟩ | ⟨rfl, e⟩ | ⟨rfl, e⟩ | ⟨rfl, e⟩ | ⟨rfl, e⟩ | ⟨rfl, e⟩ | ⟨rfl, e⟩ :=
    decodePair_cases op x <;> rw [e]
  · exact withCombo_refines rfl _ x fun v => abstrOutcome_next (execute_adv v s) _
  · rw [afterFetch_of_no_combo (by decide)]
    exact abstrOutcome_next (execute_bxl x s) _
  · exact withCombo_refines rfl _ x fun v => abstrOutcome_next (execute_bst v s) _
  · rw [afterFetch_of_no_combo (by decide)]
    exact abstrOutcome_next (execute_jnz x s) _
  · rw [afterFetch_of_no_combo (by decide)]
    exact abstrOutcome_next (execute_bxc _ s) _
  · exact withCombo_refines rfl _ x fun v => emit_refines v s
  · exact withCombo_refines rfl _ x fun v => abstrOutcome_next (execute_bdv v s) _
  · exact withCombo_refines rfl _ x fun v => abstrOutcome_next (execute_cdv v s) _

/-- Settles O38: the fetch's two bounds checks are the algorithm's, and past them each instruction refines it. -/
theorem stepRefinesTheStepAlgorithm : Obligations.StepRefinesTheStepAlgorithm := by
  intro s
  obtain ⟨h, e⟩ | ⟨h, e⟩ | ⟨op, x, hop, hx, e⟩ := step_cases s
  · rw [e, STEP_of_progLen_le h]
    rfl
  · rw [e, STEP_of_last_word h]
    rfl
  · rw [e, STEP_of_words hop hx, exec_refines]

end Sys2Proof.Machine.Reference
end

section
/-! PROOF. Construction, restart, the read ports and several engines (45_host_commands.md R160 to R177, 60_exceptions.md
R214): what a command sets, refuses and leaves. -/

namespace Sys2Proof.Machine

/-! ### NEW -/

theorem issue_new_of_ok {cfg : Config} {a b c : Word} {prog : List Nat} {s : State}
    (h : newInstance cfg a b c prog = .ok s) (p : Nat) (e : Engine) :
    issue cfg p e (.new a b c prog) = some (.ok, some s) := by simp [issue, h]

theorem issue_new_of_error {cfg : Config} {a b c : Word} {prog : List Nat} {r : Refusal}
    (h : newInstance cfg a b c prog = .error r) (p : Nat) (e : Engine) :
    issue cfg p e (.new a b c prog) = some (.refused r, e) := by simp [issue, h]

/-- Numbers 0 to 7 become program words without a loss (R6). -/
theorem map_toNat_map_ofNat {prog : List Nat} (h : ∀ w ∈ prog, w ≤ 7) :
    (prog.map (BitVec.ofNat 3)).map BitVec.toNat = prog := by
  rw [List.map_map]
  refine (List.map_congr_left fun w hw => ?_).trans (List.map_id prog)
  exact Nat.mod_eq_of_lt (Nat.lt_succ_of_le (h w hw))

/-- Settles O43: neither of NEW's refusals applies, and the fresh instance holds what was supplied. -/
theorem newSetsEveryPieceOfState : Obligations.NewSetsEveryPieceOfState := by
  intro cfg p e a b c prog narrow short
  obtain ⟨⟨w, hw, wide⟩, -⟩ | ⟨-, ⟨m, hm, long⟩, -⟩ | ⟨-, -, made⟩ := newInstance_cases cfg a b c prog
  · exact absurd (narrow w hw) (Nat.not_le.2 wide)
  · exact absurd (short m hm) (Nat.not_le.2 long)
  · exact ⟨_, issue_new_of_ok made p e, rfl, rfl, rfl, rfl, rfl, rfl, rfl, rfl, map_toNat_map_ofNat narrow, rfl⟩


/-- Settles O44: each refusal's condition excludes the other two answers of NEW. -/
theorem newRefusesBadPrograms : Obligations.NewRefusesBadPrograms := by
  intro cfg p e a b c prog
  constructor
  · rintro ⟨w, hw, wide⟩
    obtain ⟨-, refused⟩ | ⟨narrow, -⟩ | ⟨narrow, -⟩ := newInstance_cases cfg a b c prog
    · exact issue_new_of_error refused p e
    · exact absurd (narrow w hw) (Nat.not_le.2 wide)
    · exact absurd (narrow w hw) (Nat.not_le.2 wide)
  · intro m narrow hm long
    obtain ⟨⟨w, hw, wide⟩, -⟩ | ⟨-, -, refused⟩ | ⟨-, short, -⟩ := newInstance_cases cfg a b c prog
    · exact absurd (narrow w hw) (Nat.not_le.2 wide)
    · exact issue_new_of_error refused p e
    · exact absurd (short m hm) (Nat.not_le.2 long)

/-- Settles O56: only NEW has an answer of its own without an instance. -/
theorem nothingRunsBeforeNew : Obligations.NothingRunsBeforeNew := by
  intro cfg p cmd other
  cases cmd with
  | new a b c prog => exact absurd rfl (other a b c prog)
  | run fuel => cases fuel <;> rfl
  | _ => rfl

/-! ### What no command but NEW changes -/

theorem step_sameInstance {s t : State} (h : step s = .next t) : sameInstance s t := by
  obtain ⟨i, -, effect⟩ := step_next_opcode h
  exact effect.sameInstance

theorem runFor_sameInstance (k : Nat) (s : State) : sameInstance s (runFor k s).2 :=
  runFor_induction (P := sameInstance) sameInstance_refl
    (fun _ _ _ hs hrest => sameInstance_trans (step_sameInstance hs) hrest) k s

theorem issue_sameInstance {cfg : Config} {p : Nat} {s : State} {cmd : Command} {r : Response} {e : Engine}
    (other : ∀ a b c prog, cmd ≠ .new a b c prog) (h : issue cfg p (some s) cmd = some (r, e)) :
    ∃ t, e = some t ∧ sameInstance s t := by
  obtain ⟨a, b, c, q, hnew, -⟩ | ⟨-, he⟩ | ⟨v, -, he⟩ | ⟨-, t, hs, he⟩ | ⟨k, he⟩ | he := issue_cases h
  · exact absurd hnew (other a b c q)
  · exact ⟨_, he, ⟨rfl, rfl, rfl, rfl, rfl⟩⟩
  · exact ⟨_, he, ⟨rfl, rfl, rfl, rfl, rfl⟩⟩
  · exact ⟨t, he, step_sameInstance hs⟩
  · exact ⟨_, he, runFor_sameInstance k s⟩
  · exact ⟨s, he, sameInstance_refl s⟩

/-- Settles O35: by cases on what a command can do, steps and runs having no effect on the instance. -/
theorem programAndSnapshotNeverChange : Obligations.ProgramAndSnapshotNeverChange :=
  fun _ _ _ _ _ _ => issue_sameInstance

/-! ### RESTART and RESTART_A -/

/-- Settles O46: RESTART_A is one record update, made without a condition. -/
theorem restartATakesTheGivenA : Obligations.RestartATakesTheGivenA := fun _ _ _ _ => rfl

/-- RESTART reads nothing but what no run changes. -/
theorem restart_eq_of_sameInstance {s t : State} (h : sameInstance s t) : restart t = restart s := by
  obtain ⟨hprog, ha, hb, hc, hcfg⟩ := h
  simp [restart, hprog, ha, hb, hc, hcfg]

theorem restart_fresh (cfg : Config) (a b c : Word) (prog : Memory) :
    restart (State.fresh cfg a b c prog) = State.fresh cfg a b c prog := rfl

/-- The engine holds an instance that differs from `s` in what runs change only. -/
def Engine.SameInstance (s : State) (e : Engine) : Prop := ∃ t, e = some t ∧ sameInstance s t

/-- Settles O47: the commands keep the instance, from which RESTART makes the fresh state again. -/
theorem restartForgetsEveryEarlierRun : Obligations.RestartForgetsEveryEarlierRun := by
  intro cfg p a b c v prog s cmds e made other h
  have kept : Engine.SameInstance s e := by
    refine issueAll_induction ?_ ⟨s, rfl, sameInstance_refl s⟩ h
    rintro cmd hcmd _ r e' ⟨t, rfl, hst⟩ hc
    obtain ⟨u, rfl, htu⟩ := issue_sameInstance (other cmd hcmd) hc
    exact ⟨u, rfl, sameInstance_trans hst htu⟩
  obtain ⟨t, rfl, hst⟩ := kept
  have back : restart t = s := by
    rw [restart_eq_of_sameInstance hst, newInstance_eq_fresh made, restart_fresh]
  have answer : issueAll cfg p (some t) [.restart] = some (some (restart t)) := rfl
  have answerA : issueAll cfg p (some t) [.restartA v] = some (some { restart t with a := v }) := rfl
  rw [answer, answerA, back]
  exact ⟨rfl, rfl⟩

/-! ### Reads, and other engines -/

/-- Settles O55: each port answers with its own field. -/
theorem readPortsChangeNothing : Obligations.ReadPortsChangeNothing := fun _ _ _ => ⟨rfl, rfl, rfl, rfl, rfl⟩

/-- All that a command to one of several engines can do: what it does to that engine alone, put in its place. -/
theorem issueAt_cases {cfg : Config} {p j : Nat} {engines engines' : List Engine} {cmd : Command} {r : Response}
    (h : issueAt cfg p engines j cmd = some (r, engines')) :
    ∃ e e', engines[j]? = some e ∧ issue cfg p e cmd = some (r, e') ∧ engines' = engines.set j e' := by
  unfold issueAt at h
  cases he : engines[j]? with
  | none => simp [he] at h
  | some e =>
    simp only [he, Option.map_eq_some_iff, Prod.mk.injEq] at h
    obtain ⟨⟨r', e'⟩, hi, rfl, rfl⟩ := h
    exact ⟨e, e', rfl, hi, rfl⟩

/-- Settles O57: the one engine is set in place, which keeps the list's length and its other places. -/
theorem enginesDoNotSeeEachOther : Obligations.EnginesDoNotSeeEachOther := by
  intro cfg p j engines engines' cmd r h
  obtain ⟨e, e', he, hi, rfl⟩ := issueAt_cases h
  obtain ⟨hj, -⟩ := List.getElem?_eq_some_iff.1 he
  exact ⟨⟨e, e', he, List.getElem?_set_self hj, hi⟩, List.length_set, fun i hne => List.getElem?_set_ne hne.symm⟩

end Sys2Proof.Machine
end

section
/-! PROOF. Runs (45_host_commands.md R170, R171, 70_reset_and_hazards.md R238): where a bounded run stops, how it resumes, and
what an unbounded one can answer. -/

namespace Sys2Proof.Machine

/-! ### What a run does at its first state -/

/-- A run stops at a finished state, or else takes a step if it has fuel, which commits or faults. -/
theorem runFor_cases (s : State) :
    (finished s = true ∧ ∀ k, runFor k s = (.finished, s)) ∨
    (finished s = false ∧ runFor 0 s = (.notTerminated, s) ∧
      ((∃ t, step s = .next t ∧ ∀ k, runFor (k + 1) s = runFor k t) ∨
        ∃ f, step s = .fault f ∧ ∀ k, runFor (k + 1) s = (.fault f, s))) := by
  cases hf : finished s with
  | true => exact .inl ⟨rfl, runFor_of_finished hf⟩
  | false =>
    refine .inr ⟨rfl, runFor_zero hf, ?_⟩
    cases hs : step s with
    | next t => exact .inl ⟨t, rfl, fun k => runFor_succ_next hf hs⟩
    | fault f => exact .inr ⟨f, rfl, fun k => runFor_succ_fault hf hs⟩
    | refused r => exact absurd hs (step_ne_refused s r)

theorem pc_ne_of_not_finished {s : State} (h : finished s = false) : s.pc ≠ progLen s := of_decide_eq_false h

/-! ### Where a bounded run stops -/

/-- `j` single steps lead from `s` to `t`, none of them taken from a finished state. -/
def CommitsTo (j : Nat) (s t : State) : Prop :=
  Host.Core.run Sys2Proof.core j s = .next t ∧
    ∀ i u, i < j → Host.Core.run Sys2Proof.core i s = .next u → u.pc ≠ progLen u

theorem core_run_succ {s t : State} (h : step s = .next t) (k : Nat) :
    Host.Core.run Sys2Proof.core (k + 1) s = Host.Core.run Sys2Proof.core k t := by
  have hcore : Sys2Proof.core.step s = .next t := h
  simp only [Host.Core.run, hcore]

theorem CommitsTo.zero (s : State) : CommitsTo 0 s s := ⟨rfl, fun _ _ h => absurd h (Nat.not_lt_zero _)⟩

theorem CommitsTo.cons {s t u : State} {j : Nat} (hf : finished s = false) (hs : step s = .next t)
    (h : CommitsTo j t u) : CommitsTo (j + 1) s u := by
  obtain ⟨hrun, later⟩ := h
  refine ⟨(core_run_succ hs j).trans hrun, fun i v hi hv => ?_⟩
  cases i with
  | zero =>
    obtain rfl : s = v := by cases hv; rfl
    exact pc_ne_of_not_finished hf
  | succ i => exact later i v (Nat.lt_of_succ_lt_succ hi) ((core_run_succ hs i).symm.trans hv)

/-- Why a run of at most `k` steps ends in `t` after `j` of them, and what it answers. -/
def StopsWith (k j : Nat) (t : State) (r : Response) : Prop :=
  (r = .finished ∧ t.pc = progLen t) ∨
  (r = .notTerminated ∧ j = k ∧ t.pc ≠ progLen t) ∨
  ∃ f, r = .fault f ∧ j < k ∧ t.pc ≠ progLen t ∧ step t = .fault f

theorem StopsWith.succ {k j : Nat} {t : State} {r : Response} (h : StopsWith k j t r) :
    StopsWith (k + 1) (j + 1) t r := by
  obtain h | ⟨hr, rfl, hpc⟩ | ⟨f, hr, hj, h⟩ := h
  · exact .inl h
  · exact .inr (.inl ⟨hr, rfl, hpc⟩)
  · exact .inr (.inr ⟨f, hr, Nat.succ_lt_succ hj, h⟩)

theorem runFor_stops (k : Nat) (s : State) :
    ∃ j, j ≤ k ∧ CommitsTo j s (runFor k s).2 ∧ StopsWith k j (runFor k s).2 (runFor k s).1 := by
  induction k generalizing s with
  | zero =>
    refine ⟨0, le_rfl, ?_⟩
    obtain ⟨hf, e⟩ | ⟨hf, e, -⟩ := runFor_cases s
    · rw [e]
      exact ⟨.zero s, .inl ⟨rfl, (finished_iff s).1 hf⟩⟩
    · rw [e]
      exact ⟨.zero s, .inr (.inl ⟨rfl, rfl, pc_ne_of_not_finished hf⟩)⟩
  | succ k ih =>
    obtain ⟨hf, e⟩ | ⟨hf, -, ⟨t, hs, e⟩ | ⟨f, hs, e⟩⟩ := runFor_cases s
    · rw [e]
      exact ⟨0, Nat.zero_le _, .zero s, .inl ⟨rfl, (finished_iff s).1 hf⟩⟩
    · rw [e]
      obtain ⟨j, hj, hcommits, hstops⟩ := ih t
      exact ⟨j + 1, Nat.succ_le_succ hj, .cons hf hs hcommits, hstops.succ⟩
    · rw [e]
      exact ⟨0, Nat.zero_le _, .zero s, .inr (.inr ⟨f, rfl, k.succ_pos, pc_ne_of_not_finished hf, hs⟩)⟩

/-- Settles O49: by induction over the fuel, each committed step being one more single step before the stop. -/
theorem runStopsAtTheFirstFinishOrFault : Obligations.RunStopsAtTheFirstFinishOrFault := by
  intro k s t r h
  obtain ⟨j, hj, ⟨hrun, hopen⟩, hstops⟩ := runFor_stops k s
  rw [h] at hrun hstops
  exact ⟨j, hj, hrun, hopen, hstops⟩

/-! ### More fuel -/

/-- Settles O50: by induction over the first run's steps, which the longer run takes first. -/
theorem runResumesAfterNotTerminated : Obligations.RunResumesAfterNotTerminated := by
  intro j k s t h
  induction j generalizing s with
  | zero =>
    obtain ⟨-, e⟩ | ⟨-, e, -⟩ := runFor_cases s <;> rw [e] at h
    · exact nomatch h
    · rw [Nat.zero_add, (Prod.mk.inj h).2]
  | succ j ih =>
    rw [Nat.succ_add]
    obtain ⟨-, e⟩ | ⟨-, -, ⟨u, -, e⟩ | ⟨f, -, e⟩⟩ := runFor_cases s <;> rw [e] at h
    · exact nomatch h
    · rw [e, ih u h]
    · exact nomatch h

/-- A run that has ended answers the same with more fuel. -/
theorem runFor_add_of_ended {j : Nat} {s : State} (h : (runFor j s).1 ≠ .notTerminated) (k : Nat) :
    runFor (j + k) s = runFor j s := by
  induction j generalizing s with
  | zero =>
    obtain ⟨-, e⟩ | ⟨-, e, -⟩ := runFor_cases s
    · rw [e, e]
    · exact absurd (congrArg Prod.fst e) h
  | succ j ih =>
    rw [Nat.succ_add]
    obtain ⟨-, e⟩ | ⟨-, -, ⟨u, -, e⟩ | ⟨f, -, e⟩⟩ := runFor_cases s
    · rw [e, e]
    · rw [e] at h
      rw [e, e, ih h]
    · rw [e, e]

/-! ### The unbounded run -/

theorem runUnbounded_of_ended {p : Nat} {s : State} (h : (runFor p s).1 ≠ .notTerminated) :
    runUnbounded p s = some (runFor p s) := by
  unfold runUnbounded
  split
  · next e => exact absurd (congrArg Prod.fst e) h
  · rfl

theorem runUnbounded_of_notTerminated {p : Nat} {s t : State} (h : runFor p s = (.notTerminated, t)) :
    runUnbounded p s = none := by
  simp [runUnbounded, h]

theorem runUnbounded_mono {p q : Nat} (hpq : p ≤ q) {s : State} {answer : Response × State}
    (h : runUnbounded p s = some answer) : runUnbounded q s = some answer := by
  obtain ⟨rfl, ended⟩ := runUnbounded_eq_some h
  obtain ⟨d, rfl⟩ := Nat.exists_eq_add_of_le hpq
  have same := runFor_add_of_ended ended d
  rw [runUnbounded_of_ended (same ▸ ended), same]

/-- The unbounded RUN alone depends on how long it is looked at. -/
theorem issue_eq_of_bounded {cmd : Command} (h : cmd ≠ .run none) (p q : Nat) (cfg : Config) (e : Engine) :
    issue cfg p e cmd = issue cfg q e cmd := by
  cases cmd with
  | run fuel =>
    cases fuel with
    | none => exact absurd rfl h
    | some k => cases e <;> rfl
  | _ => cases e <;> rfl

/-- Looking at a command for longer never changes the answer it has given. -/
theorem issue_mono {p q : Nat} (hpq : p ≤ q) {cfg : Config} {e : Engine} {cmd : Command} {answer : Response × Engine}
    (h : issue cfg p e cmd = some answer) : issue cfg q e cmd = some answer := by
  by_cases unbounded : cmd = .run none
  · subst unbounded
    cases e with
    | none => exact h
    | some s =>
      obtain ⟨a, ha, rfl⟩ := Option.map_eq_some_iff.1 h
      exact Option.map_eq_some_iff.2 ⟨a, runUnbounded_mono hpq ha, rfl⟩
  · rw [issue_eq_of_bounded unbounded q p, h]

/-- Settles O51: the longer of the two looks gives both answers. -/
theorem everyCommandHasOneAnswer : Obligations.EveryCommandHasOneAnswer := by
  rintro cfg e e₁ e₂ cmd r₁ r₂ ⟨p, h₁⟩ ⟨q, h₂⟩
  have same := (issue_mono (le_max_left p q) h₁).symm.trans (issue_mono (le_max_right p q) h₂)
  exact Prod.mk.inj (Option.some.inj same)

/-! ### Runs that go on, and runs that keep A -/

theorem runFor_of_self_loop {s : State} (hf : finished s = false) (loop : step s = .next s) (k : Nat) :
    runFor k s = (.notTerminated, s) := by
  induction k with
  | zero => exact runFor_zero hf
  | succ k ih => rw [runFor_succ_next hf loop, ih]

/-- Settles O52: the taken jump leads back to the same state, which is not finished. -/
theorem jumpToItselfNeverReturns : Obligations.JumpToItselfNeverReturns := by
  intro s x ha hop hx target p
  have inside : s.pc < progLen s := (memRead_isSome_iff s _).1 ⟨_, hop⟩
  have loop : step s = .next s := by
    rw [step_of_words hop hx, decodePair_jnz, exec_jnz_of_ne_zero ha, jumpTo_eq, target]
  exact runUnbounded_of_notTerminated (runFor_of_self_loop (decide_eq_false inside.ne) loop p)

/-- Settles O53: each step of the run has another opcode than adv's at pc, and keeps the program that shows it. -/
theorem runsWithoutAdvKeepA : Obligations.RunsWithoutAdvKeepA := by
  intro s k
  refine runFor_induction (P := fun s t => (∀ j, memRead s j ≠ some 0#3) → t.a = s.a) (fun _ _ => rfl) ?_ k s
  intro s t u hs hrest noAdv
  obtain ⟨i, hop, effect⟩ := step_next_opcode hs
  have kept : t.a = s.a := effect.a_eq fun h0 => noAdv s.pc (h0 ▸ hop)
  exact (hrest fun j => effect.memRead_eq j ▸ noAdv j).trans kept

end Sys2Proof.Machine
end
